-- ==== Sys2Proof/Word.lean ====
section
/-! DEFINITION. The block's data types (00_scope.md R11; 10_state.md R39).

A command word is the unsigned value of its bits, a `Nat` (00_scope.md R11); a word of the block has `CW = W + 4` bits
(30_encoding.md R72), and `decode` rejects a wider number. -/

namespace Sys2Proof

/-- A bit; the source's `false` is the bit 0 and `true` is the bit 1 (00_scope.md R11). -/
abbrev Bit := Bool

/-- A count field: a value of the bounded type `[0, MAX]` (10_state.md R39; 30_encoding.md R70). -/
abbrev CountField (W : Nat) : Type := Fin (2 ^ W)

/-- The field 0. -/
def zeroField (W : Nat) : CountField W := ⟨0, Nat.two_pow_pos W⟩

end Sys2Proof
end

