-- ==== Sys2Proof/Config.lean ====
section
/-! DEFINITION. The elaboration-time configuration of the block: `W`, `FIELD_BIT_ORDER`, `W_LIMIT` (00_scope.md R6 to R10). -/

namespace Sys2Proof

/-- `FIELD_BIT_ORDER`: the order of a field's bits in a bit stream (00_scope.md R8). -/
inductive BitOrder where
  | msbFirst
  | lsbFirst
deriving DecidableEq, Repr

/-- A configuration is valid when `1 ≤ W ≤ W_LIMIT` (00_scope.md R9); no limit stands for `W_LIMIT = ∞`. -/
def configAccepts (W : Nat) (wLimit : Option Nat) : Bool :=
  decide (1 ≤ W) && (match wLimit with
    | none => true
    | some limit => decide (W ≤ limit))

/-- A valid configuration. The proof is part of the value, so that no block exists for an invalid one
(00_scope.md R9; 60_exceptions.md R208). -/
structure Config where
  /-- the field width (R6) -/
  W : Nat
  /-- `FIELD_BIT_ORDER` (R8) -/
  order : BitOrder
  /-- `W_LIMIT`, absent for no limit (R9; log entry 2) -/
  wLimit : Option Nat
  /-- `1 ≤ W ≤ W_LIMIT` (R9) -/
  valid : configAccepts W wLimit = true := by decide
deriving DecidableEq, Repr

/-- Why a configuration is refused at initialization (00_scope.md R9). -/
inductive ConfigError where
  /-- `W ≤ 0` -/
  | widthZero
  /-- `W` above `W_LIMIT` -/
  | widthOverLimit
deriving DecidableEq, Repr

/-- Elaborate a configuration; an invalid one is refused and gives no block (00_scope.md R9). -/
def Config.elaborate (W : Nat) (order : BitOrder) (wLimit : Option Nat) : Except ConfigError Config :=
  if h : configAccepts W wLimit = true then .ok ⟨W, order, wLimit, h⟩
  else if W = 0 then .error .widthZero
  else .error .widthOverLimit

/-- `MAX = 2^W − 1` (00_scope.md R7). -/
def Config.MAX (c : Config) : Nat := 2 ^ c.W - 1

/-- `CW = W + 4`, the width of a command word (30_encoding.md R72). -/
def Config.CW (c : Config) : Nat := c.W + 4

theorem Config.one_lt (c : Config) : 1 < 2 ^ c.W := by
  have h := c.valid
  simp only [configAccepts, Bool.and_eq_true, decide_eq_true_eq] at h
  exact Nat.one_lt_two_pow (by omega)

theorem Config.MAX_lt (c : Config) : c.MAX < 2 ^ c.W := Nat.sub_lt (Nat.two_pow_pos c.W) Nat.one_pos

/-- The reference configuration of the source's scenarios: `W = 4`, the default bit order
(00_scope.md R6, R8; 95_test_vectors.md). DESIGN CHOICE (log entries 1 and 10): `State.reset` carries it. -/
def Config.reference : Config := ⟨4, .msbFirst, none, by decide⟩

/-- The second reference configuration, `W = 8` (00_scope.md R6). -/
def Config.reference8 : Config := ⟨8, .msbFirst, none, by decide⟩

end Sys2Proof
end

