-- ==== Sys2Proof/Syntax.lean ====
section
/-! DEFINITION. The commands: one constructor per row of spec/opcode_table.json (30_encoding.md R75). -/

namespace Sys2Proof

/-- The two units of the block (00_scope.md R1). -/
inductive CoreUnit where
  | enc
  | dec
deriving DecidableEq, Repr

/-- A command. The four table rows of reserved opcodes keep the opcode bits their mask leaves free. -/
inductive Instr where
  /-- NOP, op 0x0 (42_block_control.md R170) -/
  | nop
  /-- ENC.START, op 0x1 (40_encoder.md R101) -/
  | encStart
  /-- ENC.BIT, op 0x2, `b = cmd[4]` (40_encoder.md R102) -/
  | encBit (b : Bit)
  /-- ENC.END, op 0x3 (40_encoder.md R108) -/
  | encEnd
  /-- RESERVED.ENC, ops 0x4 to 0x7: the low two opcode bits (42_block_control.md R171) -/
  | reservedEnc (low : Fin 4)
  /-- RESERVED.DEC, op 0x8 (42_block_control.md R171) -/
  | reservedDec8
  /-- DEC.START, op 0x9 (41_decoder.md R131) -/
  | decStart
  /-- DEC.BIT, op 0xA, `c = cmd[4]` (41_decoder.md R133) -/
  | decBit (c : Bit)
  /-- DEC.END, op 0xB (41_decoder.md R137) -/
  | decEnd
  /-- DEC.FIELD, op 0xC, `f = cmd[W+3:4]` (41_decoder.md R136); a number, since a command is written before a width is
  chosen: `Instr.wellFormed` bounds it, and `execDecField` reads a field of the block's width from it (log entry 22) -/
  | decField (f : Nat)
  /-- RESERVED.DEC, op 0xD (42_block_control.md R171) -/
  | reservedDecD
  /-- RESERVED.DEC, ops 0xE and 0xF: the low opcode bit (42_block_control.md R171) -/
  | reservedDecEF (low : Fin 2)
deriving DecidableEq, Repr

end Sys2Proof
end

