-- ==== Sys2Proof/WellFormed.lean ====
section
/-! DEFINITION. Which commands have a command word at the width `W`: the operand `f` of DEC.FIELD has `W` bits (30_encoding.md R73, R79). -/

namespace Sys2Proof

/-- The command has an encoding at field width `W`. Every other operand is bounded by its type. -/
def Instr.wellFormed (W : Nat) : Instr → Bool
  | .nop => true
  | .encStart => true
  | .encBit _ => true
  | .encEnd => true
  | .reservedEnc _ => true
  | .reservedDec8 => true
  | .decStart => true
  | .decBit _ => true
  | .decEnd => true
  | .decField f => decide (f < 2 ^ W)
  | .reservedDecD => true
  | .reservedDecEF _ => true

end Sys2Proof
end

