-- ==== Sys2Proof/Decode.lean ====
section
/-! DEFINITION. The command word: its fields, the decoder, and the encoder (30_encoding.md R72 to R80). -/

namespace Sys2Proof

/-- `v[hi:lo]`, the unsigned value of bits `hi` down to `lo` (00_scope.md R11). -/
def bitSlice (v hi lo : Nat) : Nat := v / 2 ^ lo % 2 ^ (hi + 1 - lo)

/-- `op = cmd[3:0]` (30_encoding.md R73). -/
def opOperand (w : Nat) : Nat := bitSlice w 3 0

/-- `b = cmd[4]`, the bit operand of format CB (30_encoding.md R73, R79). -/
def bitOperand (w : Nat) : Bit := bitSlice w 4 4 == 1

/-- `f = cmd[W+3:4]`, the field operand of format CF (30_encoding.md R73, R79). -/
def fieldOperand (W : Nat) (w : Nat) : Nat := bitSlice w (W + 3) 4

theorem opOperand_lt (w : Nat) : opOperand w < 16 :=
  Nat.mod_lt _ (by decide)

/-- Why a number is no command word. -/
inductive DecodeError where
  /-- the number does not fit in `CW = W + 4` bits (30_encoding.md R72) -/
  | wordTooWide
deriving DecidableEq, Repr

/-- The command a `CW`-bit word spells, by `op` alone (30_encoding.md R75, R80). Ignored bits are not read (R78;
log entry 9). -/
def decodeFields (W : Nat) (w : Nat) : Instr :=
  match (⟨opOperand w, opOperand_lt w⟩ : Fin 16) with
  | ⟨0, _⟩ => .nop
  | ⟨1, _⟩ => .encStart
  | ⟨2, _⟩ => .encBit (bitOperand w)
  | ⟨3, _⟩ => .encEnd
  | ⟨4, _⟩ => .reservedEnc 0
  | ⟨5, _⟩ => .reservedEnc 1
  | ⟨6, _⟩ => .reservedEnc 2
  | ⟨7, _⟩ => .reservedEnc 3
  | ⟨8, _⟩ => .reservedDec8
  | ⟨9, _⟩ => .decStart
  | ⟨10, _⟩ => .decBit (bitOperand w)
  | ⟨11, _⟩ => .decEnd
  | ⟨12, _⟩ => .decField (fieldOperand W w)
  | ⟨13, _⟩ => .reservedDecD
  | ⟨14, _⟩ => .reservedDecEF 0
  | ⟨15, _⟩ => .reservedDecEF 1
  | ⟨n + 16, h⟩ => absurd h (by omega)

/-- Decode a number at field width `W`: every `CW`-bit word decodes (30_encoding.md R80); a wider number is
no command word and is rejected by name (log entry 6). -/
def decode (W : Nat) (w : Nat) : Except DecodeError Instr :=
  if w < 2 ^ (W + 4) then .ok (decodeFields W w) else .error .wordTooWide

/-- The opcode of a command (30_encoding.md R75). -/
def Instr.opcode : Instr → Nat
  | .nop => 0x0
  | .encStart => 0x1
  | .encBit _ => 0x2
  | .encEnd => 0x3
  | .reservedEnc low => 0x4 + low.val
  | .reservedDec8 => 0x8
  | .decStart => 0x9
  | .decBit _ => 0xA
  | .decEnd => 0xB
  | .decField _ => 0xC
  | .reservedDecD => 0xD
  | .reservedDecEF low => 0xE + low.val

/-- The operand bits of a command, `cmd[W+3:4]`; ignored bits are written as 0 (30_encoding.md R74, R78). -/
def Instr.operandBits : Instr → Nat
  | .nop => 0
  | .encStart => 0
  | .encBit b => b.toNat
  | .encEnd => 0
  | .reservedEnc _ => 0
  | .reservedDec8 => 0
  | .decStart => 0
  | .decBit c => c.toNat
  | .decEnd => 0
  | .decField f => f
  | .reservedDecD => 0
  | .reservedDecEF _ => 0

/-- The command word of a command: the opcode in `cmd[3:0]`, the operand above it (30_encoding.md R73, R82).
The word of a well-formed command has `CW` bits (`Laws.Fits`). -/
def encode (i : Instr) : Nat := i.opcode + 16 * i.operandBits

/-- Unit selection: `op[3]` selects the unit, but NOP selects none (30_encoding.md R76). -/
def Instr.unit : Instr → Option CoreUnit
  | .nop => none
  | .encStart => some .enc
  | .encBit _ => some .enc
  | .encEnd => some .enc
  | .reservedEnc _ => some .enc
  | .reservedDec8 => some .dec
  | .decStart => some .dec
  | .decBit _ => some .dec
  | .decEnd => some .dec
  | .decField _ => some .dec
  | .reservedDecD => some .dec
  | .reservedDecEF _ => some .dec

/-- The word with the ignored bits of its format written as 0 (30_encoding.md R74, R78): format CF keeps all,
CB keeps `cmd[4:0]`, C0 keeps `cmd[3:0]`. -/
def clearIgnoredBits (w : Nat) : Nat :=
  if opOperand w = 0xC then w
  else if opOperand w = 0x2 ∨ opOperand w = 0xA then bitSlice w 4 0
  else bitSlice w 3 0

/-- What the decoder reads from an opcode-table word of `nbits` bits: one command word at the reference
configuration, `W = 4`, whose words have eight bits (log entry 11). -/
def decodeTableWord (nbits w : Nat) : Option Instr :=
  match decode Config.reference.W (w % 2 ^ nbits) with
  | .ok i => some i
  | .error _ => none

end Sys2Proof
end

