-- ==== Sys2Proof/Machine/State.lean ====
section
/-! DEFINITION. The state of the block, its reset value, and the reasons a step can stop (10_state.md R20 to R38). -/

namespace Sys2Proof.Machine

/-- The control state of a unit's pass (10_state.md R24). The value 3 is never held and is left out
(log entry 8). -/
inductive Phase where
  | active
  | done
  | error
deriving DecidableEq, Repr

/-- The error codes (60_exceptions.md R200). The codes 6 to 15 are never recorded and are left out
(log entry 8). -/
inductive ErrCode where
  | noFault
  | illegalCommand
  | phase
  | truncatedInput
  | fieldMisaligned
  | countOverflow
deriving DecidableEq, Repr

/-- Which of the spec's two machines runs: the command-level machine, one whole command a step
(00_scope.md R14), or its beat-level refinement, one clock beat a step (70_reset_and_hazards.md R240 to R248).
The model's own field (log entry 3). -/
inductive Level where
  | command
  | beat
deriving DecidableEq, Repr

/-- The encoder's registers and output at the field width `W` (10_state.md R21, R23, R36). -/
structure EncUnit (W : Nat) where
  /-- `enc_phase` -/
  phase : Phase
  /-- `enc_cur`: the value of the run in progress -/
  cur : Bit
  /-- `enc_count`: the bits of the run in progress not yet emitted, a `W`-bit register (40_encoder.md R107) -/
  count : CountField W
  /-- `enc_err`: the first error of the pass -/
  err : ErrCode
  /-- `enc_out`: the fields emitted in this pass; no order to the bits of `dec_out` is recorded (log entry 14) -/
  out : List (CountField W)
  /-- `enc_pend`: fields emitted and not yet transferred (beat level only) -/
  pend : List (CountField W)
deriving DecidableEq, Repr

/-- The decoder's registers and output at the field width `W` (10_state.md R22, R23, R36). -/
structure DecUnit (W : Nat) where
  /-- `dec_phase` -/
  phase : Phase
  /-- `dec_cur`: the value the next field expands to -/
  cur : Bit
  /-- `dec_acc`: the field reader's accumulator, a `W`-bit register -/
  acc : CountField W
  /-- `dec_nbits`: how many bits of the current field have been received -/
  nbits : Nat
  /-- `dec_err`: the first error of the pass -/
  err : ErrCode
  /-- `dec_out`: the bits emitted in this pass -/
  out : List Bit
  /-- `dec_xval`: the value of the field being expanded (beat level only) -/
  xval : Bit
  /-- `dec_remaining`: the copies of `dec_xval` still to be transferred (beat level only), a `W`-bit register -/
  remaining : CountField W
deriving DecidableEq, Repr

/-- One host input: the block's input pins (70_reset_and_hazards.md R240). At the beat level it is one beat.
At the command level it is one reset, one command, or nothing, and the two `ready` pins are not looked at. -/
structure HostInput where
  /-- `rst` -/
  rst : Bool
  /-- `cmd_valid` -/
  cmdValid : Bool
  /-- `cmd_word` -/
  cmdWord : Nat
  /-- `fo_ready` -/
  foReady : Bool
  /-- `bo_ready` -/
  boReady : Bool
deriving DecidableEq, Repr

/-- The whole state (10_state.md R20 to R23, R36), with the configuration, the level, the host's inputs still to
come, and the word offered but not accepted (log entries 1, 3, 4 and 5). The block has no memory
(20_memory.md R50), no program counter (10_state.md R26) and no general registers (R20). -/
structure State where
  /-- the configuration, shared by both units and never written (00_scope.md R10) -/
  cfg : Config
  /-- command level or beat level; never written -/
  level : Level
  /-- the encoder, whose fields are of the configuration's width (10_state.md R39) -/
  enc : EncUnit cfg.W
  /-- the decoder, of the same width (00_scope.md R10) -/
  dec : DecUnit cfg.W
  /-- beat level: the command word offered in the beat before and not accepted (70_reset_and_hazards.md R241) -/
  offered : Option Nat
  /-- the host's inputs, oldest first (20_memory.md R51, R63) -/
  inputs : List HostInput
deriving DecidableEq, Repr

/-- The encoder's reset values (10_state.md R38). -/
def EncUnit.reset {W : Nat} : EncUnit W :=
  { phase := .active, cur := false, count := zeroField W, err := .noFault, out := [], pend := [] }

/-- The decoder's reset values (10_state.md R38). -/
def DecUnit.reset {W : Nat} : DecUnit W :=
  { phase := .active, cur := false, acc := zeroField W, nbits := 0, err := .noFault, out := [], xval := false,
    remaining := zeroField W }

/-- The state after reset at a configuration and a level (10_state.md R38; 70_reset_and_hazards.md R230). There is no
state of a block that has never been reset (R233; log entry 15). -/
def State.resetWith (cfg : Config) (level : Level) : State :=
  { cfg := cfg, level := level, enc := .reset, dec := .reset, offered := none, inputs := [] }

/-- The machine right after reset: the reference configuration at the command level, no input yet
(DESIGN CHOICE, log entries 1, 3 and 4). -/
def State.reset : State := State.resetWith Config.reference .command

/-- The block never stops with a fault: a fault of the spec is part of the next state (`phase = error` and a
code; 42_block_control.md R173, 60_exceptions.md R203). So no constructor stands here, and no step raises one
(log entry 12). -/
inductive Fault where
deriving DecidableEq, Repr

/-- Why a step is refused. -/
inductive Refusal where
  /-- raised by a dispatch arm whose command has no meaning yet; safe. No arm of this model raises it. -/
  | notModelled (mnemonic : String)
  /-- raised when the host presents a number that is no `CW`-bit command word (30_encoding.md R72); safe: the port
  `cmd_word` has `CW` wires and cannot carry it (log entry 6) -/
  | notACommandWord
  /-- raised when the host withdraws or changes a command it has offered and that was not accepted
  (70_reset_and_hazards.md R241; 93_implementation_defined.md I22, treatment refuse); safe (log entry 5) -/
  | hostDutyBroken
deriving DecidableEq, Repr

end Sys2Proof.Machine
end

