-- ==== Sys2Proof/Machine/Operands.lean ====
section
/-! DEFINITION. Fields as bit streams: serialisation, assembly, bit images, and the field reader's one-bit step
(30_encoding.md R84 to R87; 41_decoder.md R133 to R135). The operands of the command word are in Decode.lean. -/

namespace Sys2Proof.Machine

/-- `ser(v)`: the `W` bits that carry the field `v`, in stream order (30_encoding.md R84). -/
def ser (order : BitOrder) (W : Nat) (v : Nat) : List Bit :=
  match order with
  | .msbFirst => (List.range W).map fun i => v.testBit (W - 1 - i)
  | .lsbFirst => (List.range W).map fun i => v.testBit i

/-- `Σ_j c[j]·2^(|c|−1−j)`, the MSB_FIRST sum (30_encoding.md R85, 41_decoder.md R134). -/
def msbSum : List Bit → Nat
  | [] => 0
  | c :: rest => c.toNat * 2 ^ rest.length + msbSum rest

/-- `Σ_j c[j]·2^j`, the LSB_FIRST sum (30_encoding.md R85, 41_decoder.md R135). -/
def lsbSum : List Bit → Nat
  | [] => 0
  | c :: rest => c.toNat + 2 * lsbSum rest

/-- `deser(c)`: the field that the bits `c` carry (30_encoding.md R85). -/
def deser (order : BitOrder) (c : List Bit) : Nat :=
  match order with
  | .msbFirst => msbSum c
  | .lsbFirst => lsbSum c

/-- `bits(F)`, the bit image of a compressed stream; no padding (30_encoding.md R86). -/
def bitImage (order : BitOrder) (W : Nat) (fields : List Nat) : List Bit :=
  fields.flatMap (ser order W)

/-- The complete fields of a bit sequence: field `k` is the bits `k·W` to `k·W + W − 1`
(30_encoding.md R87, 20_memory.md R55). -/
def completeFields (order : BitOrder) (W : Nat) (bits : List Bit) : List Nat :=
  (List.range (bits.length / W)).map fun k => deser order ((bits.drop (k * W)).take W)

/-- The bits of a sequence after its last complete field (30_encoding.md R87). -/
def leftoverBits (W : Nat) (bits : List Bit) : List Bit :=
  bits.drop (bits.length / W * W)

/-- The `W`-bit field that a number carries on `W` wires, with no range check (30_encoding.md R79). A number of at most
`MAX` is carried as it is; no larger number reaches a field in a run (log entries 7 and 22). -/
def fieldOf (W n : Nat) : CountField W := ⟨n % 2 ^ W, Nat.mod_lt n (Nat.two_pow_pos W)⟩

/-- The field `MAX` (00_scope.md R7). -/
def maxField (c : Config) : CountField c.W := ⟨c.MAX, c.MAX_lt⟩

/-- The field 1: the counter restarted at 0 and incremented for the bit at hand (40_encoder.md R105). -/
def oneField (c : Config) : CountField c.W := ⟨1, c.one_lt⟩

/-- The counter incremented by 1 (40_encoder.md R105), where it holds less than `MAX`: there is no wrap (R107). -/
def countUp {W : Nat} (f : CountField W) (h : f.val + 1 < 2 ^ W) : CountField W := ⟨f.val + 1, h⟩

/-- One copy less to transfer (70_reset_and_hazards.md R245). -/
def countDown {W : Nat} (f : CountField W) : CountField W := ⟨f.val - 1, Nat.lt_of_le_of_lt (Nat.sub_le _ _) f.isLt⟩

/-- One bit into the field reader's accumulator, a `W`-bit register (41_decoder.md R133 to R135). In a run the sum fits
(10_state.md R29; log entry 7). -/
def accumulate {W : Nat} (order : BitOrder) (acc : CountField W) (nbits : Nat) (c : Bit) : CountField W :=
  match order with
  | .msbFirst => fieldOf W (2 * acc.val + c.toNat)
  | .lsbFirst => fieldOf W (acc.val + c.toNat * 2 ^ nbits)

end Sys2Proof.Machine
end

