-- ==== Sys2Proof/Machine/Ops.lean ====
section
/-! DEFINITION. The operations the commands share: fault entry and recovery, the common dispatch checks,
emission, expansion, transfer and reset. Each works on one unit, which is all that a command of the unit reads or writes
(42_block_control.md R174). -/

namespace Sys2Proof.Machine

/-- The phase of a unit. -/
def phaseOf (u : CoreUnit) (s : State) : Phase :=
  match u with
  | .enc => s.enc.phase
  | .dec => s.dec.phase

/-- The error code of a unit. -/
def errOf (u : CoreUnit) (s : State) : ErrCode :=
  match u with
  | .enc => s.enc.err
  | .dec => s.dec.err

/-- `if u_err = 0: u_err <- code`: the first fault of the pass is kept (60_exceptions.md R203). -/
def firstError (held code : ErrCode) : ErrCode :=
  if held = .noFault then code else held

/-- Fault entry of the encoder (60_exceptions.md R203). -/
def raiseEnc {W : Nat} (code : ErrCode) (e : EncUnit W) : EncUnit W :=
  { e with err := firstError e.err code, phase := .error }

/-- Fault entry of the decoder (60_exceptions.md R203). -/
def raiseDec {W : Nat} (code : ErrCode) (d : DecUnit W) : DecUnit W :=
  { d with err := firstError d.err code, phase := .error }

/-- `raise Fault(u, code)`: record the first code, enter ERROR, change nothing else (60_exceptions.md R203).
The block has no vector, no saved program counter and no mode to change. -/
def raiseFault (u : CoreUnit) (code : ErrCode) (s : State) : State :=
  match u with
  | .enc => { s with enc := raiseEnc code s.enc }
  | .dec => { s with dec := raiseDec code s.dec }

/-- Begin an encoder pass: the writes of ENC.START, and the only command that leaves the encoder's ERROR
(40_encoder.md R101; 60_exceptions.md R210). `enc_pend` is not among its writes (10_state.md R25; log entry 20). -/
def startEnc {W : Nat} (e : EncUnit W) : EncUnit W :=
  { e with cur := false, count := zeroField W, out := [], err := .noFault, phase := .active }

/-- Begin a decoder pass: the writes of DEC.START, and the only command that leaves the decoder's ERROR
(41_decoder.md R131; 60_exceptions.md R210). `dec_xval` and `dec_remaining` are not among its writes
(10_state.md R25; log entry 20). -/
def startDec {W : Nat} (d : DecUnit W) : DecUnit W :=
  { d with cur := false, acc := zeroField W, nbits := 0, out := [], err := .noFault, phase := .active }

/-- The checks that open ENC.BIT and ENC.END: ERROR ignores the command, DONE raises PHASE, and ACTIVE runs its own
rule (42_block_control.md R173; 60_exceptions.md R205, R209, R211). -/
def whenEncActive {W : Nat} (rule : EncUnit W → EncUnit W) (e : EncUnit W) : EncUnit W :=
  match e.phase with
  | .error => e
  | .done => raiseEnc .phase e
  | .active => rule e

/-- The checks that open DEC.BIT, DEC.FIELD and DEC.END: as for the encoder (42_block_control.md R173;
60_exceptions.md R205, R209, R211). -/
def whenDecActive {W : Nat} (rule : DecUnit W → DecUnit W) (d : DecUnit W) : DecUnit W :=
  match d.phase with
  | .error => d
  | .done => raiseDec .phase d
  | .active => rule d

/-- `Reserved(ENC)`: ignored in ERROR, else ILLEGAL_COMMAND (42_block_control.md R171; 60_exceptions.md R207). -/
def reservedEncRule {W : Nat} (e : EncUnit W) : EncUnit W :=
  match e.phase with
  | .error => e
  | .done => raiseEnc .illegalCommand e
  | .active => raiseEnc .illegalCommand e

/-- `Reserved(DEC)`: ignored in ERROR, else ILLEGAL_COMMAND (42_block_control.md R171; 60_exceptions.md R207). -/
def reservedDecRule {W : Nat} (d : DecUnit W) : DecUnit W :=
  match d.phase with
  | .error => d
  | .done => raiseDec .illegalCommand d
  | .active => raiseDec .illegalCommand d

/-- `EmitField(v)`, which accepts a field and nothing else (10_state.md R39): at the command level the field joins
`enc_out` (00_scope.md R13); at the beat level it joins `enc_pend` and is offered from the next beat
(70_reset_and_hazards.md R243). -/
def emitField {W : Nat} (level : Level) (v : CountField W) (e : EncUnit W) : EncUnit W :=
  match level with
  | .command => { e with out := e.out ++ [v] }
  | .beat => { e with pend := e.pend ++ [v] }

/-- `EmitBit(b)`: the bit joins `dec_out` (00_scope.md R13). -/
def emitBit {W : Nat} (b : Bit) (d : DecUnit W) : DecUnit W :=
  { d with out := d.out ++ [b] }

/-- `repeat n times: EmitBit(b)` (41_decoder.md R132). -/
def emitCopies {W : Nat} : Nat → Bit → DecUnit W → DecUnit W
  | 0, _, d => d
  | n + 1, b, d => emitCopies n b (emitBit b d)

/-- `dec_cur <- not dec_cur` (41_decoder.md R132). -/
def flipDecCur {W : Nat} (d : DecUnit W) : DecUnit W :=
  { d with cur := !d.cur }

/-- `Expand(v)`: at the command level `v` copies of `dec_cur` are emitted (41_decoder.md R132); at the beat level
they are made ready for transfer (70_reset_and_hazards.md R243); at both `dec_cur` flips. -/
def expand {W : Nat} (level : Level) (v : CountField W) (d : DecUnit W) : DecUnit W :=
  match level with
  | .command => flipDecCur (emitCopies v.val d.cur d)
  | .beat => flipDecCur { d with xval := d.cur, remaining := v }

/-- One transfer on the field output: the first pending field moves to `enc_out` (70_reset_and_hazards.md R244). -/
def transferField {W : Nat} (e : EncUnit W) : EncUnit W :=
  match e.pend with
  | [] => e
  | f :: rest => { e with out := e.out ++ [f], pend := rest }

/-- One transfer on the bit output: `dec_xval` joins `dec_out` and `dec_remaining` decreases
(70_reset_and_hazards.md R245). -/
def transferBit {W : Nat} (d : DecUnit W) : DecUnit W :=
  if d.remaining.val = 0 then d
  else { emitBit d.xval d with remaining := countDown d.remaining }

/-- Reset: every register takes its reset value, pending output and partial fields are discarded
(10_state.md R38; 70_reset_and_hazards.md R230, R232). The configuration and the host's later inputs stay. -/
def resetBlock (s : State) : State :=
  { s with enc := .reset, dec := .reset, offered := none }

end Sys2Proof.Machine
end

