-- ==== Sys2Proof/Machine/Block.lean ====
section
/-! DEFINITION. The block-level commands: NOP and the reserved opcodes (42_block_control.md R170, R171). -/

namespace Sys2Proof.Machine

/-- NOP: no register and no stream changes (42_block_control.md R170). -/
def execNop (s : State) : Host.Outcome State Fault Refusal := .next s

/-- RESERVED.ENC, ops 0x4 to 0x7, whichever of them (42_block_control.md R171). -/
def execReservedEnc (_low : Fin 4) (s : State) : Host.Outcome State Fault Refusal :=
  .next { s with enc := reservedEncRule s.enc }

/-- RESERVED.DEC, op 0x8 (42_block_control.md R171). -/
def execReservedDec8 (s : State) : Host.Outcome State Fault Refusal :=
  .next { s with dec := reservedDecRule s.dec }

/-- RESERVED.DEC, op 0xD (42_block_control.md R171). -/
def execReservedDecD (s : State) : Host.Outcome State Fault Refusal :=
  .next { s with dec := reservedDecRule s.dec }

/-- RESERVED.DEC, ops 0xE and 0xF, whichever of them (42_block_control.md R171). -/
def execReservedDecEF (_low : Fin 2) (s : State) : Host.Outcome State Fault Refusal :=
  .next { s with dec := reservedDecRule s.dec }

end Sys2Proof.Machine
end

