-- ==== Sys2Proof/Machine/Decoder.lean ====
section
/-! DEFINITION. The decoder's commands: DEC.START, DEC.BIT, DEC.FIELD, DEC.END (41_decoder.md R130 to R138). -/

namespace Sys2Proof.Machine

/-- DEC.START: begin a decoder pass, in every phase (41_decoder.md R131). -/
def execDecStart (s : State) : Host.Outcome State Fault Refusal :=
  .next { s with dec := startDec s.dec }

/-- DEC.BIT in phase ACTIVE: accumulate, and expand the field when its `W`-th bit arrives
(41_decoder.md R133 to R135). -/
def decBitRule {W : Nat} (order : BitOrder) (level : Level) (c : Bit) (d : DecUnit W) : DecUnit W :=
  let acc := accumulate order d.acc d.nbits c
  if d.nbits + 1 = W then expand level acc { d with acc := zeroField W, nbits := 0 }
  else { d with acc := acc, nbits := d.nbits + 1 }

/-- DEC.BIT c: give the field reader one bit (41_decoder.md R133). -/
def execDecBit (c : Bit) (s : State) : Host.Outcome State Fault Refusal :=
  .next { s with dec := whenDecActive (decBitRule s.cfg.order s.level c) s.dec }

/-- DEC.FIELD in phase ACTIVE: FIELD_MISALIGNED inside a field, else expand (41_decoder.md R136). -/
def decFieldRule {W : Nat} (level : Level) (f : CountField W) (d : DecUnit W) : DecUnit W :=
  if d.nbits ≠ 0 then raiseDec .fieldMisaligned d else expand level f d

/-- DEC.FIELD f: give the decoder one whole field (41_decoder.md R136). The operand is read on `W` wires with no range
check (30_encoding.md R79); a decoded `f` is at most `MAX` (log entry 22). -/
def execDecField (f : Nat) (s : State) : Host.Outcome State Fault Refusal :=
  .next { s with dec := whenDecActive (decFieldRule s.level (fieldOf s.cfg.W f)) s.dec }

/-- DEC.END in phase ACTIVE: TRUNCATED_INPUT inside a field, else DONE (41_decoder.md R137, R138). -/
def decEndRule {W : Nat} (d : DecUnit W) : DecUnit W :=
  if d.nbits ≠ 0 then raiseDec .truncatedInput d
  else { d with phase := .done }

/-- DEC.END: the input is exhausted (41_decoder.md R137). -/
def execDecEnd (s : State) : Host.Outcome State Fault Refusal :=
  .next { s with dec := whenDecActive decEndRule s.dec }

end Sys2Proof.Machine
end

