-- ==== Sys2Proof/Machine/Encoder.lean ====
section
/-! DEFINITION. The encoder's commands: ENC.START, ENC.BIT, ENC.END (40_encoder.md R100 to R109). -/

namespace Sys2Proof.Machine

/-- ENC.START: begin an encoder pass, in every phase (40_encoder.md R101). -/
def execEncStart (s : State) : Host.Outcome State Fault Refusal :=
  .next { s with enc := startEnc s.enc }

/-- Flip: emit the run in progress and begin the run of the other value with this bit (40_encoder.md R103 to R105). -/
def encFlip (cfg : Config) (level : Level) (e : EncUnit cfg.W) : EncUnit cfg.W :=
  { emitField level e.count e with count := oneField cfg, cur := !e.cur }

/-- Overflow escape: emit `MAX` and a zero-length run, and go on with the same value and this bit
(40_encoder.md R105, R106). -/
def encEscape (cfg : Config) (level : Level) (e : EncUnit cfg.W) : EncUnit cfg.W :=
  { emitField level (zeroField cfg.W) (emitField level (maxField cfg) e) with count := oneField cfg }

/-- The increment where there is neither a flip nor an escape (40_encoder.md R105). -/
def encIncrement {W : Nat} (e : EncUnit W) (h : e.count.val + 1 < 2 ^ W) : EncUnit W :=
  { e with count := countUp e.count h }

/-- A counter that is not at `MAX` has room for the increment (40_encoder.md R107). -/
theorem countUp_fits {cfg : Config} {f : CountField cfg.W} (h : f.val ≠ cfg.MAX) : f.val + 1 < 2 ^ cfg.W := by
  have := f.isLt
  unfold Config.MAX at h
  omega

/-- ENC.BIT in phase ACTIVE: the overflow check, which a `W`-bit counter never fails (R107), then flip, escape or
neither, each with the increment (40_encoder.md R102 to R107). -/
def encBitRule (cfg : Config) (level : Level) (b : Bit) (e : EncUnit cfg.W) : EncUnit cfg.W :=
  if cfg.MAX < e.count.val then raiseEnc .countOverflow e
  else if b ≠ e.cur then encFlip cfg level e
  else if h : e.count.val = cfg.MAX then encEscape cfg level e
  else encIncrement e (countUp_fits h)

/-- ENC.BIT b: consume one input bit (40_encoder.md R102). -/
def execEncBit (b : Bit) (s : State) : Host.Outcome State Fault Refusal :=
  .next { s with enc := whenEncActive (encBitRule s.cfg s.level b) s.enc }

/-- ENC.END in phase ACTIVE: flush the run in progress; `enc_cur` and `enc_count` stay (40_encoder.md R108). -/
def encEndRule {W : Nat} (level : Level) (e : EncUnit W) : EncUnit W :=
  { emitField level e.count e with phase := .done }

/-- ENC.END: the input is exhausted (40_encoder.md R108). -/
def execEncEnd (s : State) : Host.Outcome State Fault Refusal :=
  .next { s with enc := whenEncActive (encEndRule s.level) s.enc }

end Sys2Proof.Machine
end

