-- ==== Sys2Proof/Machine/Dispatch.lean ====
section
/-! DEFINITION. Dispatch: one arm per command (42_block_control.md R173). -/

namespace Sys2Proof.Machine

def exec (i : Instr) (s : State) : Host.Outcome State Fault Refusal :=
  match i with
  | .nop => Sys2Proof.Machine.execNop s
  | .encStart => Sys2Proof.Machine.execEncStart s
  | .encBit b => Sys2Proof.Machine.execEncBit b s
  | .encEnd => Sys2Proof.Machine.execEncEnd s
  | .reservedEnc low => Sys2Proof.Machine.execReservedEnc low s
  | .reservedDec8 => Sys2Proof.Machine.execReservedDec8 s
  | .decStart => Sys2Proof.Machine.execDecStart s
  | .decBit c => Sys2Proof.Machine.execDecBit c s
  | .decEnd => Sys2Proof.Machine.execDecEnd s
  | .decField f => Sys2Proof.Machine.execDecField f s
  | .reservedDecD => Sys2Proof.Machine.execReservedDecD s
  | .reservedDecEF low => Sys2Proof.Machine.execReservedDecEF low s

end Sys2Proof.Machine
end

