-- ==== Sys2Proof/Machine/Flags.lean ====
section
/-! DEFINITION. What the block shows outside: the STATUS word and the output ports
(10_state.md R24, R34; 60_exceptions.md R200; 70_reset_and_hazards.md R240 to R247). There are no condition codes (10_state.md R33). -/

namespace Sys2Proof.Machine

/-- The value of a phase, two bits (10_state.md R24). -/
def phaseCode : Phase → BitVec 2
  | .active => 0
  | .done => 1
  | .error => 2

/-- The value of an error code, four bits (60_exceptions.md R200). -/
def errCodeValue : ErrCode → BitVec 4
  | .noFault => 0
  | .illegalCommand => 1
  | .phase => 2
  | .truncatedInput => 3
  | .fieldMisaligned => 4
  | .countOverflow => 5

/-- ENC_BUSY: `enc_pend` is not empty; always 0 at the command level (10_state.md R34; 70_reset_and_hazards.md R247). -/
def encBusy (s : State) : Bool :=
  match s.level with
  | .command => false
  | .beat => !s.enc.pend.isEmpty

/-- DEC_BUSY: `dec_remaining > 0`; always 0 at the command level (10_state.md R34; 70_reset_and_hazards.md R247). -/
def decBusy (s : State) : Bool :=
  match s.level with
  | .command => false
  | .beat => decide (0 < s.dec.remaining.val)

/-- STATUS, a function of the registers, driven at all times; bits [15:14] read 0 (10_state.md R34;
42_block_control.md R172). -/
def statusWord (s : State) : BitVec 16 :=
  (0#2 ++ (BitVec.ofBool (decBusy s) ++ (BitVec.ofBool (encBusy s) ++ (errCodeValue s.dec.err
    ++ (errCodeValue s.enc.err ++ (phaseCode s.dec.phase ++ phaseCode s.enc.phase)))))).cast (by decide)

/-- `cmd_ready`: no output is pending in either unit (70_reset_and_hazards.md R242). -/
def cmdReady (s : State) : Bool := s.enc.pend.isEmpty && decide (s.dec.remaining.val = 0)

/-- `fo_valid`: `enc_pend ≠ []` (70_reset_and_hazards.md R244). -/
def foValid (s : State) : Bool := !s.enc.pend.isEmpty

/-- `fo_data`: the first element of `enc_pend`; none while there is none (70_reset_and_hazards.md R244; log entry 13). -/
def foData (s : State) : Option (CountField s.cfg.W) := s.enc.pend.head?

/-- `bo_valid`: `dec_remaining > 0` (70_reset_and_hazards.md R245). -/
def boValid (s : State) : Bool := decide (0 < s.dec.remaining.val)

/-- `bo_data = dec_xval` (70_reset_and_hazards.md R245). -/
def boData (s : State) : Bit := s.dec.xval

/-- The output ports of the block (70_reset_and_hazards.md R240). -/
structure OutputPorts (W : Nat) where
  cmdReady : Bool
  foValid : Bool
  foData : Option (CountField W)
  boValid : Bool
  boData : Bit
  status : BitVec 16
deriving DecidableEq, Repr

/-- The output ports, from the registers at the start of a beat (70_reset_and_hazards.md R242 to R247). -/
def outputPorts (s : State) : OutputPorts s.cfg.W :=
  { cmdReady := cmdReady s, foValid := foValid s, foData := foData s,
    boValid := boValid s, boData := boData s, status := statusWord s }

end Sys2Proof.Machine
end

