-- ==== Sys2Proof/Machine/Interface.lean ====
section
/-! DEFINITION. How the block takes a host input: one command or reset at the command level (00_scope.md R14),
one clock beat at the beat level (70_reset_and_hazards.md R230, R241 to R245). -/

namespace Sys2Proof.Machine

/-- `Step(cmd)`: decode a command word and execute it (42_block_control.md R173). -/
def runWord (w : Nat) (s : State) : Host.Outcome State Fault Refusal :=
  match decode s.cfg.W w with
  | .ok i => exec i s
  | .error .wordTooWide => .refused .notACommandWord

/-- A host input at the command level: reset is one atomic step (70_reset_and_hazards.md R230), a command is one
indivisible step (00_scope.md R14), and without either nothing happens. -/
def commandInput (p : HostInput) (s : State) : Host.Outcome State Fault Refusal :=
  if p.rst then .next (resetBlock s)
  else if p.cmdValid then runWord p.cmdWord s
  else .next s

/-- The host has offered a command that was not accepted, and does not offer the same word now
(70_reset_and_hazards.md R241). -/
def dutyBroken (p : HostInput) (s : State) : Bool :=
  match s.offered with
  | none => false
  | some w => !(p.cmdValid && decide (p.cmdWord = w))

/-- The transfers of a beat on the two output channels: each happens where `valid` and `ready` are both 1
(70_reset_and_hazards.md R241, R244, R245). PRESUMED (log entry 17): the spec marks the convention as general knowledge. -/
def outputTransfers (p : HostInput) (s : State) : State :=
  { s with
    enc := if p.foReady then transferField s.enc else s.enc
    dec := if p.boReady then transferBit s.dec else s.dec }

/-- One beat of the block (70_reset_and_hazards.md R230, R241 to R245). Reset wins and nothing is accepted or
transferred. An offered command is executed when `cmd_ready`; otherwise it waits while output is transferred. -/
def beatInput (p : HostInput) (s : State) : Host.Outcome State Fault Refusal :=
  if p.rst then .next (resetBlock s)
  else if dutyBroken p s then .refused .hostDutyBroken
  else if p.cmdValid then
    match decode s.cfg.W p.cmdWord with
    | .error .wordTooWide => .refused .notACommandWord
    | .ok i =>
      if cmdReady s then exec i { s with offered := none }
      else .next { outputTransfers p s with offered := some p.cmdWord }
  else .next (outputTransfers p s)

/-- Take one host input, at the level the state is at: one command, or one beat and nothing finer (log entry 19). -/
def takeInput (p : HostInput) (s : State) : Host.Outcome State Fault Refusal :=
  match s.level with
  | .command => commandInput p s
  | .beat => beatInput p s

/-- The input `p` makes the block reset or accept a command: the event that counts at the command level
(70_reset_and_hazards.md R230, R242, R248). -/
def takesEffect (p : HostInput) (s : State) : Bool :=
  p.rst || (p.cmdValid && cmdReady s)

/-- The host takes all pending output at once and withdraws any offer: the state in which a command can be
accepted in the very next beat (70_reset_and_hazards.md R242). At the command level nothing is ever pending.
For `State.withFetchWord` only (log entry 21). -/
def settle (s : State) : State :=
  match s.level with
  | .command => s
  | .beat => { s with
      enc := { s.enc with out := s.enc.out ++ s.enc.pend, pend := [] }
      dec := { s.dec with
        out := s.dec.out ++ List.replicate s.dec.remaining.val s.dec.xval
        remaining := zeroField s.cfg.W }
      offered := none }

/-- The input that offers the command word `w`, with both outputs accepted. -/
def offerWord (w : Nat) : HostInput :=
  { rst := false, cmdValid := true, cmdWord := w, foReady := true, boReady := true }

/-- The input that asserts reset and nothing else (70_reset_and_hazards.md R230). -/
def offerReset : HostInput :=
  { rst := true, cmdValid := false, cmdWord := 0, foReady := false, boReady := false }

end Sys2Proof.Machine
end

