-- ==== Sys2Proof/Machine/Step.lean ====
section
/-! DEFINITION. One step of the machine: it takes the host's next input. -/

namespace Sys2Proof.Machine

/-- One step: take the oldest host input; with no input nothing changes (20_memory.md R63;
60_exceptions.md R218; 93_implementation_defined.md I9). -/
def step (s : State) : Host.Outcome State Fault Refusal :=
  match s.inputs with
  | [] => .next s
  | p :: rest => takeInput p { s with inputs := rest }

/-- The state in which the host offers the opcode-table word of `nbits` bits next, so that the very next step
executes it (log entries 4 and 21). -/
def State.withFetchWord (s : State) (nbits w : Nat) : State :=
  let t := settle s
  { t with inputs := offerWord (w % 2 ^ nbits) :: t.inputs }

end Sys2Proof.Machine
end

