-- ==== Sys2Proof/Machine/Assembler.lean ====
section
/-! DEFINITION. The assembler: source lines, pseudo-instructions and their text (30_encoding.md R82, R83).
The text's finer points are log entry 16. -/

namespace Sys2Proof.Machine

/-- The pseudo-instructions (30_encoding.md R83). -/
inductive Pseudo where
  /-- `enc.bits "s"` -/
  | encBits (s : List Bit)
  /-- `enc.run B, N` -/
  | encRun (b : Bit) (n : Nat)
  /-- `enc.pass "s"` -/
  | encPass (s : List Bit)
  /-- `dec.fields [f0, …, fn]` -/
  | decFields (fields : List Nat)
  /-- `dec.serial [f0, …, fn]` -/
  | decSerial (fields : List Nat)
  /-- `dec.pass [f0, …, fn]` -/
  | decPass (fields : List Nat)
deriving DecidableEq, Repr

/-- The expansion of a pseudo-instruction, in order; it stands for this and nothing more (30_encoding.md R83). -/
def Pseudo.expansion (order : BitOrder) (W : Nat) : Pseudo → List Instr
  | .encBits s => s.map .encBit
  | .encRun b n => List.replicate n (.encBit b)
  | .encPass s => .encStart :: (s.map .encBit ++ [.encEnd])
  | .decFields fields => fields.map .decField
  | .decSerial fields => (bitImage order W fields).map .decBit
  | .decPass fields => .decStart :: (fields.map .decField ++ [.decEnd])

/-- A source line: a command, a raw word, or a pseudo-instruction (30_encoding.md R82, R83). -/
inductive SourceLine where
  | command (i : Instr)
  /-- `.word X` -/
  | word (x : Nat)
  | pseudo (p : Pseudo)
deriving DecidableEq, Repr

/-- Why the assembler rejects a line. -/
inductive AsmError where
  /-- `enc.bit` or `dec.bit` with an operand other than 0 or 1 (R82) -/
  | operandNotABit
  /-- a field operand above `MAX` (R82); for `dec.serial` the model's choice (DESIGN CHOICE, log entry 16) -/
  | fieldAboveMax
  /-- `.word X` with `X` wider than `CW` bits: R82 gives `X[W+3:0]` and does not say that such a line is rejected; the
  rejection is the model's choice (DESIGN CHOICE, log entry 16) -/
  | wordTooWide
  /-- no mnemonic of R82 or R83 -/
  | unknownMnemonic
  /-- the operands do not have the form the mnemonic takes (R82, R83) -/
  | badOperands
deriving DecidableEq, Repr

/-- The word of one command; a field operand above `MAX` is rejected (30_encoding.md R82). -/
def assembleCommand (W : Nat) (i : Instr) : Except AsmError Nat :=
  if i.wellFormed W then .ok (encode i) else .error .fieldAboveMax

/-- The words of several commands, in order. -/
def assembleCommands (W : Nat) : List Instr → Except AsmError (List Nat)
  | [] => .ok []
  | i :: rest =>
    match assembleCommand W i, assembleCommands W rest with
    | .error e, _ => .error e
    | .ok _, .error e => .error e
    | .ok w, .ok words => .ok (w :: words)

/-- Every field operand of the pseudo-instruction is at most `MAX` (30_encoding.md R82, R83). A `dec.serial` field above
`MAX` has no `ser` (R84), and R82 does not list it among what is rejected; that it is rejected as `dec.field` is, is the
model's choice (DESIGN CHOICE, log entry 16). -/
def Pseudo.fieldsFit (W : Nat) : Pseudo → Bool
  | .encBits _ => true
  | .encRun _ _ => true
  | .encPass _ => true
  | .decFields fields => fields.all fun f => decide (f < 2 ^ W)
  | .decSerial fields => fields.all fun f => decide (f < 2 ^ W)
  | .decPass fields => fields.all fun f => decide (f < 2 ^ W)

/-- The command words of a source line (30_encoding.md R82, R83). A raw word wider than `CW` bits is rejected and not
cut to `X[W+3:0]`, and a `dec.serial` field above `MAX` is rejected: R82 lists neither among what an assembler must
reject, so both are the model's choice (DESIGN CHOICE, log entry 16). -/
def assembleLine (order : BitOrder) (W : Nat) : SourceLine → Except AsmError (List Nat)
  | .command i => assembleCommands W [i]
  | .word x => if x < 2 ^ (W + 4) then .ok [x] else .error .wordTooWide
  | .pseudo p =>
    if p.fieldsFit W then assembleCommands W (p.expansion order W) else .error .fieldAboveMax

/-! ## The text of a line -/

/-- A token of a source line. -/
inductive Token where
  | atom (cs : List Char)
  | quoted (cs : List Char)
  | lbrack
  | rbrack
  | comma
deriving DecidableEq, Repr

/-- What the lexer has read of the token in progress, last character first. -/
inductive LexMode where
  | outside (cs : List Char)
  | inside (cs : List Char)
deriving DecidableEq, Repr

/-- The atom in progress, if it holds any character. -/
def flushAtom : List Char → List Token
  | [] => []
  | c :: cs => [.atom (c :: cs).reverse]

/-- Put tokens before the tokens of the rest of the line. -/
def prepend (ts : List Token) : Option (List Token) → Option (List Token)
  | none => none
  | some rest => some (ts ++ rest)

/-- Cut a line into tokens; a comment runs from `;` to the end of the line (30_encoding.md R82). -/
def lexLine : List Char → LexMode → Option (List Token)
  | [], .outside cs => some (flushAtom cs)
  | [], .inside _ => none
  | c :: rest, .outside cs =>
    if c = ';' then some (flushAtom cs)
    else if c = ' ' ∨ c = '\t' ∨ c = '\r' then prepend (flushAtom cs) (lexLine rest (.outside []))
    else if c = '[' then prepend (flushAtom cs ++ [.lbrack]) (lexLine rest (.outside []))
    else if c = ']' then prepend (flushAtom cs ++ [.rbrack]) (lexLine rest (.outside []))
    else if c = ',' then prepend (flushAtom cs ++ [.comma]) (lexLine rest (.outside []))
    else if c = '\"' then prepend (flushAtom cs) (lexLine rest (.inside []))
    else lexLine rest (.outside (c :: cs))
  | c :: rest, .inside cs =>
    if c = '\"' then prepend [.quoted cs.reverse] (lexLine rest (.outside []))
    else lexLine rest (.inside (c :: cs))

/-- The value of a digit in a base. -/
def digitValue (base : Nat) (c : Char) : Option Nat :=
  let n := c.toNat
  let v := if 48 ≤ n ∧ n ≤ 57 then n - 48
    else if 97 ≤ n ∧ n ≤ 102 then n - 87
    else if 65 ≤ n ∧ n ≤ 70 then n - 55
    else base
  if v < base then some v else none

/-- The value of digits after the value `acc` of those before them. -/
def digitsValue (base : Nat) : List Char → Nat → Option Nat
  | [], acc => some acc
  | c :: rest, acc =>
    match digitValue base c with
    | none => none
    | some v => digitsValue base rest (acc * base + v)

/-- A number: decimal, or hexadecimal with a `0x` prefix (30_encoding.md R82). -/
def parseNumber : List Char → Option Nat
  | [] => none
  | '0' :: 'x' :: d :: rest => digitsValue 16 (d :: rest) 0
  | c :: rest => digitsValue 10 (c :: rest) 0

/-- A bit string, first bit leftmost (00_scope.md R11). -/
def parseBits : List Char → Option (List Bit)
  | [] => some []
  | c :: rest =>
    match parseBits rest with
    | none => none
    | some bits => if c = '0' then some (false :: bits) else if c = '1' then some (true :: bits) else none

/-- The rest of a bracketed list of numbers, after its first number. -/
def parseListTail : List Token → Option (List Nat)
  | [.rbrack] => some []
  | .comma :: .atom cs :: rest =>
    match parseNumber cs, parseListTail rest with
    | some n, some ns => some (n :: ns)
    | _, _ => none
  | _ => none

/-- A bracketed list of numbers `[f0, …, fn]` (30_encoding.md R83). -/
def parseList : List Token → Option (List Nat)
  | [.lbrack, .rbrack] => some []
  | .lbrack :: .atom cs :: rest =>
    match parseNumber cs, parseListTail rest with
    | some n, some ns => some (n :: ns)
    | _, _ => none
  | _ => none

/-- The bit that a number operand spells; another number is rejected (30_encoding.md R82). -/
def bitOf (n : Nat) : Except AsmError Bit :=
  if n = 0 then .ok false else if n = 1 then .ok true else .error .operandNotABit

/-- A line whose form takes no operand. -/
def noOperand (i : Instr) : List Token → Except AsmError SourceLine
  | [] => .ok (.command i)
  | _ :: _ => .error .badOperands

/-- A line whose form takes one number. -/
def numberOperand (build : Nat → Except AsmError SourceLine) : List Token → Except AsmError SourceLine
  | [.atom cs] =>
    match parseNumber cs with
    | some n => build n
    | none => .error .badOperands
  | _ => .error .badOperands

/-- A line whose form takes a quoted bit string. -/
def bitsOperand (build : List Bit → Pseudo) : List Token → Except AsmError SourceLine
  | [.quoted cs] =>
    match parseBits cs with
    | some bits => .ok (.pseudo (build bits))
    | none => .error .badOperands
  | _ => .error .badOperands

/-- A line whose form takes a bracketed list. -/
def listOperand (build : List Nat → Pseudo) (ts : List Token) : Except AsmError SourceLine :=
  match parseList ts with
  | some fields => .ok (.pseudo (build fields))
  | none => .error .badOperands

/-- The operands of `enc.run B, N` (30_encoding.md R83). -/
def runOperands : List Token → Except AsmError SourceLine
  | [.atom bs, .comma, .atom ns] =>
    match parseNumber bs, parseNumber ns with
    | some b, some n => (bitOf b).map fun bit => .pseudo (.encRun bit n)
    | _, _ => .error .badOperands
  | _ => .error .badOperands

/-- Read the operands that the mnemonic takes (30_encoding.md R82, R83). -/
def parseOperands (m : List Char) (ts : List Token) : Except AsmError SourceLine :=
  if m = "nop".toList then noOperand .nop ts
  else if m = "enc.start".toList then noOperand .encStart ts
  else if m = "enc.bit".toList then numberOperand (fun n => (bitOf n).map fun b => .command (.encBit b)) ts
  else if m = "enc.end".toList then noOperand .encEnd ts
  else if m = "dec.start".toList then noOperand .decStart ts
  else if m = "dec.bit".toList then numberOperand (fun n => (bitOf n).map fun c => .command (.decBit c)) ts
  else if m = "dec.end".toList then noOperand .decEnd ts
  else if m = "dec.field".toList then numberOperand (fun n => .ok (.command (.decField n))) ts
  else if m = ".word".toList then numberOperand (fun x => .ok (.word x)) ts
  else if m = "enc.bits".toList then bitsOperand .encBits ts
  else if m = "enc.run".toList then runOperands ts
  else if m = "enc.pass".toList then bitsOperand .encPass ts
  else if m = "dec.fields".toList then listOperand .decFields ts
  else if m = "dec.serial".toList then listOperand .decSerial ts
  else if m = "dec.pass".toList then listOperand .decPass ts
  else .error .unknownMnemonic

/-- Read one line of text; a line with nothing but space or a comment holds no command (30_encoding.md R82). -/
def parseLine (line : List Char) : Except AsmError (Option SourceLine) :=
  match lexLine line (.outside []) with
  | none => .error .badOperands
  | some [] => .ok none
  | some (.atom m :: ts) => (parseOperands m ts).map some
  | some (_ :: _) => .error .unknownMnemonic

/-- The command words of one line of text. -/
def assembleText (order : BitOrder) (W : Nat) (line : List Char) : Except AsmError (List Nat) :=
  match parseLine line with
  | .error e => .error e
  | .ok none => .ok []
  | .ok (some l) => assembleLine order W l

/-- The command words of a program, one command a line (30_encoding.md R82). -/
def assembleProgram (order : BitOrder) (W : Nat) : List (List Char) → Except AsmError (List Nat)
  | [] => .ok []
  | line :: rest =>
    match assembleText order W line, assembleProgram order W rest with
    | .error e, _ => .error e
    | .ok _, .error e => .error e
    | .ok ws, .ok words => .ok (ws ++ words)

end Sys2Proof.Machine
end

