-- ==== Sys2Proof/Machine/Passes.lean ====
section
/-! DEFINITION. Whole passes: the pure pass functions, the closed form, canonical streams, and runs of several
commands or beats (40_encoder.md R110 to R114; 41_decoder.md R139 to R142; 70_reset_and_hazards.md R248, R250). -/

namespace Sys2Proof.Machine

/-- `encode` of the bits still to come, from the current value and count (40_encoder.md R110). -/
def encodeFrom (MAX : Nat) (cur : Bit) (count : Nat) : List Bit → List Nat
  | [] => [count]
  | b :: rest =>
    if b ≠ cur then count :: encodeFrom MAX (!cur) 1 rest
    else if count = MAX then MAX :: 0 :: encodeFrom MAX cur 1 rest
    else encodeFrom MAX cur (count + 1) rest

/-- `encode(S)`, the pure pass function of the encoder (40_encoder.md R110). -/
def encodePass (MAX : Nat) (S : List Bit) : List Nat := encodeFrom MAX false 0 S

/-- `decode` of the fields still to come, from the current value (41_decoder.md R139). -/
def decodeFrom (cur : Bit) : List Nat → List Bit
  | [] => []
  | v :: rest => List.replicate v cur ++ decodeFrom (!cur) rest

/-- `decode(F)`, the pure pass function of the decoder (41_decoder.md R139). -/
def decodePass (F : List Nat) : List Bit := decodeFrom false F

/-- `n mod 2` as a bit: the value that field `n` of a stream represents (10_state.md R30). -/
def parityBit (n : Nat) : Bit := decide (n % 2 = 1)

/-- The lengths of the maximal runs, when `n` bits of the value `cur` have been read. -/
def runLengthsFrom (cur : Bit) (n : Nat) : List Bit → List Nat
  | [] => [n]
  | b :: rest => if b = cur then runLengthsFrom cur (n + 1) rest else n :: runLengthsFrom b 1 rest

/-- The lengths `L_0, …, L_{m−1}` of the maximal runs of a bit sequence (40_encoder.md R111). -/
def runLengths : List Bit → List Nat
  | [] => []
  | b :: rest => runLengthsFrom b 1 rest

/-- `seg(L)`: the fields of one run, `[MAX, 0]` for each escape and then the rest (40_encoder.md R111). -/
def seg (MAX L : Nat) : List Nat :=
  (List.replicate ((L - 1) / MAX) [MAX, 0]).flatten ++ [L - (L - 1) / MAX * MAX]

/-- The leading field 0 of a stream whose first bit is 1 (40_encoder.md R104, R111). -/
def leadingZero : List Bit → List Nat
  | [] => []
  | b :: _ => if b then [0] else []

/-- The closed form of `encode` (40_encoder.md R111). -/
def encodeClosedForm (MAX : Nat) (S : List Bit) : List Nat :=
  if S = [] then [0] else leadingZero S ++ (runLengths S).flatMap (seg MAX)

/-- The number of fields of a pass by the formula of 40_encoder.md R113. -/
def fieldCountFormula (MAX : Nat) (S : List Bit) : Nat :=
  if S = [] then 1
  else (leadingZero S).length + ((runLengths S).map fun L => 2 * ((L - 1) / MAX) + 1).sum

/-- A canonical field sequence (40_encoder.md R114): `[0]`, or a last field of at least 1 and every zero field
after position 0 right after a `MAX`. -/
def Canonical (MAX : Nat) (F : List Nat) : Prop :=
  F = [0] ∨ ((∃ last, F.getLast? = some last ∧ 1 ≤ last) ∧
    ∀ k, F[k + 1]? = some 0 → F[k]? = some MAX)

/-- Execute commands one after the other, stopping at the first that does not answer a next state. -/
def execAll : List Instr → State → Host.Outcome State Fault Refusal
  | [], s => .next s
  | i :: rest, s =>
    match exec i s with
    | .next t => execAll rest t
    | .fault r => .fault r
    | .refused r => .refused r

/-- The fields that the decoder completes while it runs commands, when `nbits` bits of a field have been read:
one by DEC.FIELD, one by the `W`-th DEC.BIT of a field (10_state.md R32). -/
def completedFields (W : Nat) : Nat → List Instr → Nat
  | _, [] => 0
  | nbits, i :: rest =>
    match i with
    | .decField _ => 1 + completedFields W nbits rest
    | .decBit _ => if nbits + 1 = W then 1 + completedFields W 0 rest else completedFields W (nbits + 1) rest
    | .nop => completedFields W nbits rest
    | .encStart => completedFields W nbits rest
    | .encBit _ => completedFields W nbits rest
    | .encEnd => completedFields W nbits rest
    | .reservedEnc _ => completedFields W nbits rest
    | .reservedDec8 => completedFields W nbits rest
    | .decStart => completedFields W nbits rest
    | .decEnd => completedFields W nbits rest
    | .reservedDecD => completedFields W nbits rest
    | .reservedDecEF _ => completedFields W nbits rest

/-- The inputs that count at the command level among those that the next `k` steps take, in order: the resets and
the accepted commands (70_reset_and_hazards.md R248). It ends at a step that answers no next state. -/
def effectiveInputs : Nat → State → List HostInput
  | 0, _ => []
  | k + 1, s =>
    match s.inputs with
    | [] => []
    | p :: _ =>
      match step s with
      | .next t => if takesEffect p s then p :: effectiveInputs k t else effectiveInputs k t
      | .fault _ => []
      | .refused _ => []

/-- The beats until a command can be accepted when both outputs are taken at once: one beat for each pending
field or bit (70_reset_and_hazards.md R242 to R245, R251). -/
def pendingBeats (s : State) : Nat := max s.enc.pend.length s.dec.remaining.val

/-- `A` at the command level and `B` at the beat level agree: what `B` has transferred and what is pending make
up the output of `A`, and every other register is the same (70_reset_and_hazards.md R248). -/
def Agrees (A B : State) : Prop :=
  A.level = .command ∧ B.level = .beat ∧ B.cfg = A.cfg ∧
  (B.enc.out ++ B.enc.pend).map Fin.val = A.enc.out.map Fin.val ∧
  B.dec.out ++ List.replicate B.dec.remaining.val B.dec.xval = A.dec.out ∧
  B.enc.phase = A.enc.phase ∧ B.enc.cur = A.enc.cur ∧ B.enc.count.val = A.enc.count.val ∧ B.enc.err = A.enc.err ∧
  B.dec.phase = A.dec.phase ∧ B.dec.cur = A.dec.cur ∧ B.dec.acc.val = A.dec.acc.val ∧
  B.dec.nbits = A.dec.nbits ∧ B.dec.err = A.dec.err

end Sys2Proof.Machine
end

