-- ==== Sys2Proof/Safety.lean ====
section
/-! DEFINITION. What claims are stated in: the invariant of reachable states, the end of a pass, and the inputs of
a host that keeps its duty (10_state.md R27 to R31; 60_exceptions.md R220; 20_memory.md R63). -/

namespace Sys2Proof.Machine

/-- What every reachable encoder satisfies beyond the bounds in its types: at most two fields pending
(70_reset_and_hazards.md R246), an error code exactly in ERROR and never COUNT_OVERFLOW (60_exceptions.md R200, R202),
and the parity invariant (10_state.md R31). -/
abbrev EncUnit.Inv {W : Nat} (e : EncUnit W) : Prop :=
  e.pend.length ≤ 2 ∧ (e.phase = .error ↔ e.err ≠ .noFault) ∧
  (e.err = .noFault ∨ e.err = .illegalCommand ∨ e.err = .phase) ∧
  (e.phase = .active → e.cur = parityBit (e.out ++ e.pend).length)

/-- What every reachable decoder satisfies beyond the bounds in its types: the field-reader bound (10_state.md R29),
nothing left over in DONE (41_decoder.md R137), and an error code exactly in ERROR (60_exceptions.md R200). -/
abbrev DecUnit.Inv {W : Nat} (d : DecUnit W) : Prop :=
  d.nbits < W ∧ d.acc.val < 2 ^ d.nbits ∧ (d.phase = .done → d.nbits = 0) ∧
  (d.phase = .error ↔ d.err ≠ .noFault) ∧ d.err ≠ .countOverflow

/-- What every reachable state satisfies: both units' invariants, at most one unit with pending output
(70_reset_and_hazards.md R246), nothing pending and nothing offered at the command level (10_state.md R36). -/
abbrev State.Inv (s : State) : Prop :=
  s.enc.Inv ∧ s.dec.Inv ∧
  (s.enc.pend = [] ∨ s.dec.remaining.val = 0) ∧
  (s.level = .command → s.enc.pend = [] ∧ s.dec.remaining.val = 0 ∧ s.offered = none)

/-- Every command the host will offer is a word of `CW` bits (30_encoding.md R72). -/
abbrev State.InputsFit (s : State) : Prop :=
  ∀ p ∈ s.inputs, p.cmdValid = true → p.cmdWord < 2 ^ s.cfg.CW

/-- The encoder's pass has completed: DONE, and nothing pending (60_exceptions.md R220). -/
abbrev encPassCompleted (s : State) : Prop := s.enc.phase = .done ∧ s.enc.pend = []

/-- The decoder's pass has completed: DONE, and nothing pending (60_exceptions.md R220). -/
abbrev decPassCompleted (s : State) : Prop := s.dec.phase = .done ∧ s.dec.remaining.val = 0

/-- The unit's pass has failed (60_exceptions.md R220). -/
abbrev passFailed (u : CoreUnit) (s : State) : Prop := phaseOf u s = .error

/-- The unit's pass is open: neither completed nor failed (60_exceptions.md R220). -/
abbrev passOpen (u : CoreUnit) (s : State) : Prop :=
  ¬ passFailed u s ∧ (match u with
    | .enc => ¬ encPassCompleted s
    | .dec => ¬ decPassCompleted s)

/-- The encoder after it has emitted the fields `fs`: at the command level they have left the block
(00_scope.md R13), at the beat level they are pending (70_reset_and_hazards.md R243). -/
def EncUnit.afterFields {W : Nat} (level : Level) (fs : List (CountField W)) (e : EncUnit W) : EncUnit W :=
  match level with
  | .command => { e with out := e.out ++ fs }
  | .beat => { e with pend := e.pend ++ fs }

/-- The decoder after it has expanded the field `v`: at the command level the bits have left the block
(41_decoder.md R132), at the beat level they wait for transfer (70_reset_and_hazards.md R243). -/
def DecUnit.afterField {W : Nat} (level : Level) (v : CountField W) (d : DecUnit W) : DecUnit W :=
  match level with
  | .command => { d with out := d.out ++ List.replicate v.val d.cur, cur := !d.cur }
  | .beat => { d with xval := d.cur, remaining := v, cur := !d.cur }

/-- The encoder after a fault: the first code is kept and the phase is ERROR (60_exceptions.md R203). -/
def EncUnit.faulted {W : Nat} (code : ErrCode) (e : EncUnit W) : EncUnit W :=
  { e with phase := .error, err := if e.err = .noFault then code else e.err }

/-- The decoder after a fault: the first code is kept and the phase is ERROR (60_exceptions.md R203). -/
def DecUnit.faulted {W : Nat} (code : ErrCode) (d : DecUnit W) : DecUnit W :=
  { d with phase := .error, err := if d.err = .noFault then code else d.err }

end Sys2Proof.Machine
end

