-- ==== Sys2Proof/Certificates/Slice0/Obligations.lean ====
section
/-! DEFINITION. The statements about the model, for the provers. Each docstring names the rule of spec/ it formalises. -/

open Sys2Proof Sys2Proof.Machine

/-! ## Encoding -/

/-- Decoding the word of a well-formed command gives the command back, for every command, operand and width
(30_encoding.md R73 to R79). -/
def Obligations.DecodeOfEncode : Prop :=
  ∀ (W : Nat) (i : Instr), 1 ≤ W → i.wellFormed W = true → decode W (encode i) = .ok i

/-- 30_encoding.md R80: every `CW`-bit word decodes, by `op` alone; the ignored bits never change the decode. -/
def Obligations.EveryCommandWordDecodesByOpcode : Prop :=
  ∀ (W : Nat), 1 ≤ W →
    (∀ w, w < 2 ^ (W + 4) → ∃ i, decode W w = .ok i ∧ i.opcode = w % 16 ∧ i.wellFormed W = true) ∧
    (∀ w w', w < 2 ^ (W + 4) → w' < 2 ^ (W + 4) → clearIgnoredBits w = clearIgnoredBits w' →
      decode W w = decode W w')

/-- Encoding the decoded command gives the word back with its ignored bits written as 0 (30_encoding.md R74, R78,
R79): no operand bit is dropped or moved. And only a word of at most `CW` bits decodes: the refusal of a wider number is
the model's own choice (log entry 6). -/
def Obligations.EncodeOfDecodeClearsIgnoredBits : Prop :=
  ∀ (W w : Nat) (i : Instr), decode W w = .ok i → w < 2 ^ (W + 4) ∧ encode i = clearIgnoredBits w

/-- 30_encoding.md R78: two command words that differ only in ignored bits have the same effect, in every state. -/
def Obligations.IgnoredBitsHaveNoEffect : Prop :=
  ∀ (s : State) (w w' : Nat), w < 2 ^ s.cfg.CW → w' < 2 ^ s.cfg.CW →
    clearIgnoredBits w = clearIgnoredBits w' → runWord w s = runWord w' s

/-- Words written out from 30_encoding.md R75 and R82 decode to the commands they spell. -/
def Obligations.WrittenOutWordsDecode : Prop :=
  decode 4 0x00 = .ok .nop ∧ decode 4 0x01 = .ok .encStart ∧ decode 4 0x12 = .ok (.encBit true) ∧
  decode 4 0x03 = .ok .encEnd ∧ decode 4 0x05 = .ok (.reservedEnc 1) ∧ decode 4 0x08 = .ok .reservedDec8 ∧
  decode 4 0x0A = .ok (.decBit false) ∧ decode 4 0xFC = .ok (.decField 15) ∧
  decode 8 0xFFC = .ok (.decField 255) ∧ decode 1 0x1A = .ok (.decBit true)

/-- 30_encoding.md R85: `deser(ser(v)) = v` for every field and `ser(deser(c)) = c` for every `W`-bit sequence, in
both bit orders. -/
def Obligations.SerialisationRoundTrips : Prop :=
  ∀ (order : BitOrder) (W : Nat),
    (∀ v, v < 2 ^ W → deser order (ser order W v) = v) ∧
    (∀ c : List Bit, c.length = W → ser order W (deser order c) = c)

/-- 30_encoding.md R86, R87: a bit image has `W` bits a field and gives its fields back; any bit sequence is the
image of its complete fields and then fewer than `W` bits. -/
def Obligations.BitImageGivesFieldsBack : Prop :=
  ∀ (order : BitOrder) (W : Nat), 1 ≤ W →
    (∀ F : List Nat, (∀ f ∈ F, f < 2 ^ W) →
      (bitImage order W F).length = W * F.length ∧ completeFields order W (bitImage order W F) = F) ∧
    (∀ B : List Bit, bitImage order W (completeFields order W B) ++ leftoverBits W B = B ∧
      (leftoverBits W B).length = B.length % W)

/-- 30_encoding.md R82, R83: a pseudo-instruction whose fields fit is assembled, and its words decode to its expansion, in
order; a command is assembled to its word and a raw word to itself; a field above `MAX` is rejected, and so is a bit
operand that is neither 0 nor 1. The rejection of a `dec.serial` field above `MAX`, and of a raw word wider than `CW`
bits, is the model's own choice (log entry 16). -/
def Obligations.AssembledPseudoDecodesToExpansion : Prop :=
  ∀ (order : BitOrder) (W : Nat), 1 ≤ W →
    (∀ (p : Pseudo) (ws : List Nat), assembleLine order W (.pseudo p) = .ok ws →
      ws.map (decode W) = (p.expansion order W).map .ok) ∧
    (∀ p : Pseudo, p.fieldsFit W = true → ∃ ws, assembleLine order W (.pseudo p) = .ok ws) ∧
    (∀ p : Pseudo, p.fieldsFit W = false → assembleLine order W (.pseudo p) = .error .fieldAboveMax) ∧
    (∀ i : Instr, i.wellFormed W = true → assembleLine order W (.command i) = .ok [encode i]) ∧
    (∀ f, 2 ^ W ≤ f → assembleLine order W (.command (.decField f)) = .error .fieldAboveMax) ∧
    (∀ x, x < 2 ^ (W + 4) → assembleLine order W (.word x) = .ok [x]) ∧
    (∀ x, 2 ^ (W + 4) ≤ x → assembleLine order W (.word x) = .error .wordTooWide) ∧
    bitOf 0 = .ok false ∧ bitOf 1 = .ok true ∧ (∀ n, 2 ≤ n → bitOf n = .error .operandNotABit)

/-! ## Configuration and reset -/

/-- 00_scope.md R9, 60_exceptions.md R208: exactly the configurations with `1 ≤ W ≤ W_LIMIT` are elaborated, and no
block has another one. -/
def Obligations.OnlyValidConfigurationsExist : Prop :=
  (∀ (W : Nat) (order : BitOrder) (wLimit : Option Nat),
    (∃ c, Config.elaborate W order wLimit = .ok c ∧ c.W = W ∧ c.order = order ∧ c.wLimit = wLimit) ↔
      (1 ≤ W ∧ ∀ limit, wLimit = some limit → W ≤ limit)) ∧
  (∀ s : State, 1 ≤ s.cfg.W ∧ ∀ limit, s.cfg.wLimit = some limit → s.cfg.W ≤ limit)

/-- 10_state.md R38: the value of every register after reset, and STATUS; and START leaves each
unit as reset does. START writes none of the registers that exist at the beat level only (10_state.md R25; log
entry 20), so the unit is taken with those registers at their reset values. -/
def Obligations.ResetValues : Prop :=
  (∀ (cfg : Config) (level : Level),
    let s := State.resetWith cfg level
    s.enc.phase = .active ∧ s.enc.cur = false ∧ s.enc.count.val = 0 ∧ s.enc.err = .noFault ∧ s.enc.out = [] ∧
    s.dec.phase = .active ∧ s.dec.cur = false ∧ s.dec.acc.val = 0 ∧ s.dec.nbits = 0 ∧ s.dec.err = .noFault ∧
    s.dec.out = [] ∧ s.enc.pend = [] ∧ s.dec.xval = false ∧ s.dec.remaining.val = 0 ∧ statusWord s = 0x0000#16) ∧
  (∀ s : State, s.enc.pend = [] →
    exec .encStart s = .next { s with enc := (State.resetWith s.cfg s.level).enc }) ∧
  (∀ s : State, s.dec.xval = false → s.dec.remaining.val = 0 →
    exec .decStart s = .next { s with dec := (State.resetWith s.cfg s.level).dec })

/-- 70_reset_and_hazards.md R230: an input with `rst = 1` gives every register its reset value, whatever else it
offers; nothing is executed or transferred. -/
def Obligations.ResetInputGivesResetState : Prop :=
  ∀ (s : State) (p : HostInput) (rest : List HostInput), s.inputs = p :: rest → p.rst = true →
    step s = .next { State.resetWith s.cfg s.level with inputs := rest }

/-- 00_scope.md R10: no step changes the configuration (nor the level the model runs at, log entry 3). -/
def Obligations.ConfigurationNeverChanges : Prop :=
  ∀ s t : State, step s = .next t → t.cfg = s.cfg ∧ t.level = s.level

/-! ## The commands. Each equation gives the whole next state, so it is also the command's frame. -/

/-- 42_block_control.md R170: NOP changes no register and no stream, in every state. -/
def Obligations.NopChangesNothing : Prop :=
  ∀ s : State, exec .nop s = .next s

/-- 40_encoder.md R101: ENC.START begins a pass in every phase and writes the encoder's five registers that R101 and
10_state.md R25 list, and no other: that `enc_pend` stays is the reading of log entry 20 (DEDUCED). -/
def Obligations.EncStartBeginsPass : Prop :=
  ∀ s : State, exec .encStart s = .next { s with enc :=
    { phase := .active, cur := false, count := ⟨0, Nat.two_pow_pos s.cfg.W⟩, err := .noFault, out := [],
      pend := s.enc.pend } }

/-- 40_encoder.md R102 with R103, R105 and R106: ENC.BIT in every phase and every case; the decoder and everything not
named stay. The counter is a `W`-bit register, so it never holds a value above `MAX` and the overflow check of R107 never
fails. -/
def Obligations.EncBitFollowsItsRule : Prop :=
  ∀ (b : Bit) (s : State),
    (s.enc.phase = .error → exec (.encBit b) s = .next s) ∧
    (s.enc.phase = .done → exec (.encBit b) s = .next { s with enc := s.enc.faulted .phase }) ∧
    (s.enc.phase = .active → b ≠ s.enc.cur →
      exec (.encBit b) s = .next { s with enc :=
        { s.enc.afterFields s.level [s.enc.count] with count := ⟨1, s.cfg.one_lt⟩, cur := !s.enc.cur } }) ∧
    (s.enc.phase = .active → s.enc.count.val = s.cfg.MAX → b = s.enc.cur →
      exec (.encBit b) s = .next { s with enc :=
        { s.enc.afterFields s.level [⟨s.cfg.MAX, s.cfg.MAX_lt⟩, ⟨0, Nat.two_pow_pos s.cfg.W⟩]
          with count := ⟨1, s.cfg.one_lt⟩ } }) ∧
    (s.enc.phase = .active → b = s.enc.cur → ∀ h : s.enc.count.val + 1 < 2 ^ s.cfg.W,
      exec (.encBit b) s = .next { s with enc := { s.enc with count := ⟨s.enc.count.val + 1, h⟩ } }) ∧
    s.enc.count.val ≤ s.cfg.MAX

/-- 40_encoder.md R108: ENC.END in every phase; it emits `enc_count`, and `enc_cur` and `enc_count` stay. -/
def Obligations.EncEndFollowsItsRule : Prop :=
  ∀ s : State,
    (s.enc.phase = .error → exec .encEnd s = .next s) ∧
    (s.enc.phase = .done → exec .encEnd s = .next { s with enc := s.enc.faulted .phase }) ∧
    (s.enc.phase = .active → exec .encEnd s = .next { s with enc :=
      { s.enc.afterFields s.level [s.enc.count] with phase := .done } })

/-- 41_decoder.md R131: DEC.START begins a pass in every phase and writes the decoder's six registers that R131 and
10_state.md R25 list, and no other: that `dec_xval` and `dec_remaining` stay is the reading of log entry 20 (DEDUCED). -/
def Obligations.DecStartBeginsPass : Prop :=
  ∀ s : State, exec .decStart s = .next { s with dec :=
    { phase := .active, cur := false, acc := ⟨0, Nat.two_pow_pos s.cfg.W⟩, nbits := 0, err := .noFault, out := [],
      xval := s.dec.xval, remaining := s.dec.remaining } }

/-- 41_decoder.md R133: DEC.BIT in every phase, before and at the last bit of a field, in both bit orders; the
accumulator is the sum of R133 wherever the field reader is within the bounds of 10_state.md R29. -/
def Obligations.DecBitFollowsItsRule : Prop :=
  ∀ (c : Bit) (s : State),
    (s.dec.phase = .error → exec (.decBit c) s = .next s) ∧
    (s.dec.phase = .done → exec (.decBit c) s = .next { s with dec := s.dec.faulted .phase }) ∧
    (s.dec.phase = .active → ∃ acc : CountField s.cfg.W,
      (s.dec.nbits < s.cfg.W → s.dec.acc.val < 2 ^ s.dec.nbits →
        (s.cfg.order = .msbFirst → acc.val = 2 * s.dec.acc.val + c.toNat) ∧
        (s.cfg.order = .lsbFirst → acc.val = s.dec.acc.val + c.toNat * 2 ^ s.dec.nbits)) ∧
      (s.dec.nbits + 1 ≠ s.cfg.W →
        exec (.decBit c) s = .next { s with dec := { s.dec with acc := acc, nbits := s.dec.nbits + 1 } }) ∧
      (s.dec.nbits + 1 = s.cfg.W →
        exec (.decBit c) s = .next { s with dec :=
          { s.dec.afterField s.level acc with acc := ⟨0, Nat.two_pow_pos s.cfg.W⟩, nbits := 0 } }))

/-- 41_decoder.md R136: DEC.FIELD, with every field that its operand can carry, in every phase, at a field boundary and
inside a field; a field 0 emits no bit and flips `dec_cur` (R145). -/
def Obligations.DecFieldFollowsItsRule : Prop :=
  ∀ (s : State) (f : CountField s.cfg.W),
    (s.dec.phase = .error → exec (.decField f.val) s = .next s) ∧
    (s.dec.phase = .done → exec (.decField f.val) s = .next { s with dec := s.dec.faulted .phase }) ∧
    (s.dec.phase = .active → s.dec.nbits ≠ 0 →
      exec (.decField f.val) s = .next { s with dec := s.dec.faulted .fieldMisaligned }) ∧
    (s.dec.phase = .active → s.dec.nbits = 0 →
      exec (.decField f.val) s = .next { s with dec := s.dec.afterField s.level f })

/-- 41_decoder.md R137, R138: DEC.END in every phase, at a field boundary and inside a field; the partial field and
the bits emitted before stay as they were. -/
def Obligations.DecEndFollowsItsRule : Prop :=
  ∀ s : State,
    (s.dec.phase = .error → exec .decEnd s = .next s) ∧
    (s.dec.phase = .done → exec .decEnd s = .next { s with dec := s.dec.faulted .phase }) ∧
    (s.dec.phase = .active → s.dec.nbits ≠ 0 →
      exec .decEnd s = .next { s with dec := s.dec.faulted .truncatedInput }) ∧
    (s.dec.phase = .active → s.dec.nbits = 0 →
      exec .decEnd s = .next { s with dec := { s.dec with phase := .done } })

/-- 42_block_control.md R171, 60_exceptions.md R207: each reserved opcode faults with ILLEGAL_COMMAND in ACTIVE and
in DONE, and is ignored in ERROR; the other unit is not affected. -/
def Obligations.ReservedOpcodesRaiseIllegalCommand : Prop :=
  ∀ s : State,
    (∀ low, s.enc.phase = .error → exec (.reservedEnc low) s = .next s) ∧
    (∀ low, s.enc.phase ≠ .error →
      exec (.reservedEnc low) s = .next { s with enc := s.enc.faulted .illegalCommand }) ∧
    (∀ i, i = .reservedDec8 ∨ i = .reservedDecD ∨ i = .reservedDecEF 0 ∨ i = .reservedDecEF 1 →
      (s.dec.phase = .error → exec i s = .next s) ∧
      (s.dec.phase ≠ .error → exec i s = .next { s with dec := s.dec.faulted .illegalCommand }))

/-- 60_exceptions.md R203: fault entry keeps the first code of the pass, enters ERROR, and changes no other register
and no stream. -/
def Obligations.FaultEntryKeepsFirstCode : Prop :=
  ∀ (code : ErrCode) (s : State),
    (s.enc.err = .noFault →
      raiseFault .enc code s = { s with enc := { s.enc with err := code, phase := .error } }) ∧
    (s.enc.err ≠ .noFault → raiseFault .enc code s = { s with enc := { s.enc with phase := .error } }) ∧
    (s.dec.err = .noFault →
      raiseFault .dec code s = { s with dec := { s.dec with err := code, phase := .error } }) ∧
    (s.dec.err ≠ .noFault → raiseFault .dec code s = { s with dec := { s.dec with phase := .error } })

/-- 41_decoder.md R132, 70_reset_and_hazards.md R243: `Expand(v)` emits `v` copies of `dec_cur` at the command level,
makes them ready for transfer at the beat level, and flips `dec_cur` for every `v`, 0 included; `EmitField(v)` is
appended to the output, or to the pending output at the beat level. -/
def Obligations.EmissionAndExpansion : Prop :=
  ∀ (W : Nat) (v : CountField W) (e : EncUnit W) (d : DecUnit W),
    expand .command v d = { d with out := d.out ++ List.replicate v.val d.cur, cur := !d.cur } ∧
    expand .beat v d = { d with xval := d.cur, remaining := v, cur := !d.cur } ∧
    emitField .command v e = { e with out := e.out ++ [v] } ∧
    emitField .beat v e = { e with pend := e.pend ++ [v] }

/-! ## Rules of the whole machine -/

/-- 42_block_control.md R173: at the command level the step answers a next state for every word, in every state; at
the beat level it stops only when the host breaks its duty to hold an offered command (70_reset_and_hazards.md R241,
93_implementation_defined.md I22). No step ever faults. -/
def Obligations.StepStopsOnlyOnBrokenHostDuty : Prop :=
  ∀ s : State, s.InputsFit →
    (s.level = .command → ∃ t, step s = .next t) ∧
    (s.level = .beat → (∃ t, step s = .next t) ∨
      (step s = .refused .hostDutyBroken ∧ ∃ p rest w, s.inputs = p :: rest ∧ s.offered = some w ∧
        p.rst = false ∧ ¬ (p.cmdValid = true ∧ p.cmdWord = w)))

/-- 60_exceptions.md R204: a command that brings a unit into ERROR has no effect but the fault entry of R203. -/
def Obligations.FaultsArePrecise : Prop :=
  ∀ (i : Instr) (s t : State) (u : CoreUnit), exec i s = .next t →
    phaseOf u s ≠ .error → phaseOf u t = .error → ∃ code, code ≠ .noFault ∧ t = raiseFault u code s

/-- 60_exceptions.md R209: while a unit is in ERROR, every command for it other than its START has no effect. -/
def Obligations.ErrorPhaseIgnoresCommands : Prop :=
  ∀ (i : Instr) (u : CoreUnit) (s : State), i.unit = some u → i ≠ .encStart → i ≠ .decStart →
    phaseOf u s = .error → exec i s = .next s

/-- 60_exceptions.md R210: only the unit's START or reset leaves ERROR, and it clears the code. -/
def Obligations.OnlyStartOrResetLeavesError : Prop :=
  ∀ (s t : State) (u : CoreUnit), step s = .next t → phaseOf u s = .error → phaseOf u t ≠ .error →
    errOf u t = .noFault ∧ ∃ p rest, s.inputs = p :: rest ∧
      (p.rst = true ∨ (p.cmdValid = true ∧ ∃ i, decode s.cfg.W p.cmdWord = .ok i ∧ i.unit = some u ∧
        (i = .encStart ∨ i = .decStart)))

/-- 60_exceptions.md R205: a BIT, FIELD or END command of a unit whose phase is DONE raises PHASE. -/
def Obligations.PhaseFaultAfterEnd : Prop :=
  ∀ (i : Instr) (u : CoreUnit) (s : State), i.unit = some u → phaseOf u s = .done →
    (∃ b, i = .encBit b ∨ i = .decBit b) ∨ (∃ f, i = .decField f) ∨ i = .encEnd ∨ i = .decEnd →
    exec i s = .next (raiseFault u .phase s)

/-- 42_block_control.md R174: an encoder command reads and writes only the encoder, a decoder command only the
decoder, NOP neither; so each unit ends an interleaved run in the state it reaches alone with its own commands. -/
def Obligations.InterleavedUnitsAreIndependent : Prop :=
  (∀ (i : Instr) (s : State), i.unit = some .enc → ∃ e : EncUnit s.cfg.W,
    ∀ (d : DecUnit s.cfg.W) (o : Option Nat) (q : List HostInput),
      exec i { s with dec := d, offered := o, inputs := q }
        = .next { s with enc := e, dec := d, offered := o, inputs := q }) ∧
  (∀ (i : Instr) (s : State), i.unit = some .dec → ∃ d : DecUnit s.cfg.W,
    ∀ (e : EncUnit s.cfg.W) (o : Option Nat) (q : List HostInput),
      exec i { s with enc := e, offered := o, inputs := q }
        = .next { s with enc := e, dec := d, offered := o, inputs := q }) ∧
  (∀ (i : Instr) (s : State), i.unit = none → exec i s = .next s) ∧
  (∀ (is : List Instr) (s : State), ∃ (e : EncUnit s.cfg.W) (d : DecUnit s.cfg.W),
    execAll is s = .next { s with enc := e, dec := d } ∧
    execAll (is.filter fun i => i.unit = some .enc) s = .next { s with enc := e } ∧
    execAll (is.filter fun i => i.unit = some .dec) s = .next { s with dec := d })

/-! ## Invariants -/

/-- Every step keeps the invariant of Safety.lean, from every state that has it, at both levels (10_state.md R27, R29,
R31; 60_exceptions.md R200, R202; 70_reset_and_hazards.md R246). -/
def Obligations.StepKeepsTheInvariants : Prop :=
  ∀ s t : State, s.Inv → step s = .next t → t.Inv

/-- The state after reset has the invariant, at every configuration and level (10_state.md R38). -/
def Obligations.ResetHasTheInvariants : Prop :=
  ∀ (cfg : Config) (level : Level), (State.resetWith cfg level).Inv

/-- 10_state.md R27, R29, R31, 40_encoder.md R112, 60_exceptions.md R202: the bounds and the parity of every state that a
run from reset reaches, whatever the host does; COUNT_OVERFLOW is never recorded. At the beat level the pending fields
count too (70_reset_and_hazards.md R246, R248). -/
def Obligations.ReachableStatesAreBounded : Prop :=
  ∀ (cfg : Config) (level : Level) (hostInputs : List HostInput) (k : Nat) (t : State),
    Host.Core.run Sys2Proof.core k { State.resetWith cfg level with inputs := hostInputs } = .next t →
    t.enc.count.val ≤ cfg.MAX ∧ t.dec.nbits ≤ cfg.W - 1 ∧ t.dec.acc.val < 2 ^ t.dec.nbits ∧
    (t.enc.phase = .active → t.enc.cur = parityBit (t.enc.out.length + t.enc.pend.length)) ∧
    (level = .command → t.enc.phase = .active → t.enc.cur = parityBit t.enc.out.length) ∧
    (∀ f ∈ t.enc.out ++ t.enc.pend, f.val ≤ cfg.MAX) ∧ t.enc.err ≠ .countOverflow ∧ t.dec.err ≠ .countOverflow ∧
    t.enc.pend.length ≤ 2 ∧ t.dec.remaining.val ≤ cfg.MAX ∧
    (t.enc.pend = [] ∨ t.dec.remaining.val = 0)

/-- 10_state.md R28: after any successful ENC.BIT, `enc_count ≥ 1`. -/
def Obligations.EncCountPositiveAfterBit : Prop :=
  ∀ (b : Bit) (s t : State), s.enc.phase = .active → exec (.encBit b) s = .next t → t.enc.phase = .active →
    1 ≤ t.enc.count.val

/-- 10_state.md R32: while the decoder is ACTIVE, `dec_cur` is the parity of the number of fields completed in the
pass, by DEC.FIELD or by the `W`-th DEC.BIT of a field; the pass has begun by START or by reset. -/
def Obligations.DecoderParity : Prop :=
  ∀ (is : List Instr) (r s t : State), .decStart ∉ is →
    (exec .decStart r = .next s ∨ ∃ cfg level, s = State.resetWith cfg level) → execAll is s = .next t →
    t.dec.phase = .active → t.dec.cur = parityBit (completedFields s.cfg.W 0 is)

/-! ## Passes -/

/-- 40_encoder.md R110: an encoder pass over any finite bit sequence leaves `encode(S)` and DONE, and so does the same
pass from reset without ENC.START. -/
def Obligations.EncoderPassComputesEncode : Prop :=
  ∀ (S : List Bit),
    (∀ (order : BitOrder) (s : State), s.level = .command → ∃ e : EncUnit s.cfg.W,
      execAll ((Pseudo.encPass S).expansion order s.cfg.W) s = .next { s with enc := e } ∧
      e.out.map Fin.val = encodePass s.cfg.MAX S ∧ e.phase = .done ∧ e.err = .noFault) ∧
    (∀ cfg : Config, ∃ e : EncUnit cfg.W,
      execAll (S.map .encBit ++ [.encEnd]) (State.resetWith cfg .command)
        = .next { State.resetWith cfg .command with enc := e } ∧
      e.out.map Fin.val = encodePass cfg.MAX S ∧ e.phase = .done ∧ e.err = .noFault)

/-- 40_encoder.md R111: `encode` is the leading zero and the segments of the maximal runs; the run lengths are those of
the runs of `S` (each at least 1, values alternating from the first bit). -/
def Obligations.EncodeClosedForm : Prop :=
  ∀ (MAX : Nat) (S : List Bit), 1 ≤ MAX →
    encodePass MAX S = encodeClosedForm MAX S ∧
    (∀ b rest, S = b :: rest → decodeFrom b (runLengths S) = S) ∧ (∀ L ∈ runLengths S, 1 ≤ L)

/-- 40_encoder.md R113: the number of fields of a pass. -/
def Obligations.EncodedFieldCount : Prop :=
  ∀ (MAX : Nat) (S : List Bit), 1 ≤ MAX → (encodePass MAX S).length = fieldCountFormula MAX S

/-- 40_encoder.md R114: exactly the canonical field sequences are produced by `encode`; each zero after position 0
stands before a field of at least 1. -/
def Obligations.EncodeImageIsCanonical : Prop :=
  ∀ (MAX : Nat) (F : List Nat), 1 ≤ MAX → (∀ f ∈ F, f ≤ MAX) →
    ((∃ S, encodePass MAX S = F) ↔ Canonical MAX F) ∧
    (Canonical MAX F → ∀ k, F[k + 1]? = some 0 → ∃ v, F[k + 2]? = some v ∧ 1 ≤ v)

/-- 40_encoder.md R109: the flushed field is 0 exactly for an empty pass, and a final run of `MAX + 1` bits ends with
`MAX, 0, 1`. -/
def Obligations.FlushedFieldIsZeroOnlyWhenEmpty : Prop :=
  ∀ (MAX : Nat) (S : List Bit), 1 ≤ MAX →
    ((encodePass MAX S).getLast? = some 0 ↔ S = []) ∧
    (∀ b, (S = [] ∨ S.getLast? = some (!b)) →
      ∃ F, encodePass MAX (S ++ List.replicate (MAX + 1) b) = F ++ [MAX, 0, 1])

/-- 41_decoder.md R139: a decoder pass over any finite field sequence leaves `decode(F)`, DONE and
`dec_cur = |F| mod 2`, and the pass over its bit image leaves the same state. -/
def Obligations.DecoderPassComputesDecode : Prop :=
  ∀ (s : State) (F : List (CountField s.cfg.W)), s.level = .command → ∃ d : DecUnit s.cfg.W,
    execAll ((Pseudo.decPass (F.map Fin.val)).expansion s.cfg.order s.cfg.W) s = .next { s with dec := d } ∧
    execAll (.decStart :: ((Pseudo.decSerial (F.map Fin.val)).expansion s.cfg.order s.cfg.W ++ [.decEnd])) s
      = .next { s with dec := d } ∧
    d.out = decodePass (F.map Fin.val) ∧ d.phase = .done ∧ d.cur = parityBit F.length ∧
    d.acc.val = 0 ∧ d.nbits = 0 ∧ d.err = .noFault

/-- 41_decoder.md R140: a decoder pass over any bit sequence ends DONE when it is whole fields and with
TRUNCATED_INPUT otherwise; either way the complete fields are expanded. -/
def Obligations.BitLevelPassOutcome : Prop :=
  ∀ (B : List Bit) (s : State), s.level = .command → ∃ d : DecUnit s.cfg.W,
    execAll (.decStart :: (B.map .decBit ++ [.decEnd])) s = .next { s with dec := d } ∧
    d.out = decodePass (completeFields s.cfg.order s.cfg.W B) ∧
    (B.length % s.cfg.W = 0 → d.phase = .done ∧ d.err = .noFault) ∧
    (B.length % s.cfg.W ≠ 0 → d.phase = .error ∧ d.err = .truncatedInput ∧
      d.nbits = B.length % s.cfg.W ∧ d.acc.val = deser s.cfg.order (leftoverBits s.cfg.W B))

/-- 41_decoder.md R134, R135: after `j < W` bits of a field the accumulator is the MSB_FIRST or the LSB_FIRST sum of
those bits, and after `W` bits the field `deser(c)` is expanded. -/
def Obligations.FieldReaderAccumulates : Prop :=
  ∀ (c : List Bit) (s : State), s.dec.phase = .active → s.dec.nbits = 0 → s.dec.acc.val = 0 →
    (c.length < s.cfg.W → ∃ acc : CountField s.cfg.W, acc.val = deser s.cfg.order c ∧
      execAll (c.map .decBit) s = .next { s with dec := { s.dec with acc := acc, nbits := c.length } }) ∧
    (c.length = s.cfg.W → ∃ v : CountField s.cfg.W, v.val = deser s.cfg.order c ∧
      execAll (c.map .decBit) s = .next { s with dec := s.dec.afterField s.level v })

/-- 41_decoder.md R136: at a field boundary, the `W` DEC.BIT commands of a field and one DEC.FIELD of the same value
have the same effect, at both levels. -/
def Obligations.FieldByBitsEqualsWholeField : Prop :=
  ∀ (s : State) (f : CountField s.cfg.W), s.dec.phase = .active → s.dec.nbits = 0 → s.dec.acc.val = 0 →
    execAll ((ser s.cfg.order s.cfg.W f.val).map .decBit) s = exec (.decField f.val) s

/-- 20_memory.md R64: `p` zero padding bits after the fields append no bit to the output, add `⌊p/W⌋` flips of
`dec_cur`, and end in TRUNCATED_INPUT exactly when `W` does not divide `p`. -/
def Obligations.ZeroPaddingOutcome : Prop :=
  ∀ (s : State) (F : List (CountField s.cfg.W)) (p : Nat), s.level = .command → ∃ d : DecUnit s.cfg.W,
    execAll (.decStart :: ((bitImage s.cfg.order s.cfg.W (F.map Fin.val) ++ List.replicate p false).map .decBit
      ++ [.decEnd])) s = .next { s with dec := d } ∧
    d.out = decodePass (F.map Fin.val) ∧ d.cur = parityBit (F.length + p / s.cfg.W) ∧
    (p % s.cfg.W = 0 → d.phase = .done) ∧
    (p % s.cfg.W ≠ 0 → d.phase = .error ∧ d.err = .truncatedInput)

/-- 41_decoder.md R143: `decode(encode(S)) = S`; and in the block, the output of an encoder pass, given to a decoder
pass as whole fields or as bits, yields `S` and DONE. -/
def Obligations.RoundTripLaw : Prop :=
  ∀ (S : List Bit),
    (∀ cfg : Config, decodePass (encodePass cfg.MAX S) = S) ∧
    (∀ s : State, s.level = .command → ∃ (e : EncUnit s.cfg.W) (d : DecUnit s.cfg.W),
      execAll ((Pseudo.encPass S).expansion s.cfg.order s.cfg.W) s = .next { s with enc := e } ∧
      execAll ((Pseudo.decPass (e.out.map Fin.val)).expansion s.cfg.order s.cfg.W) { s with enc := e }
        = .next { s with enc := e, dec := d } ∧
      execAll (.decStart :: ((Pseudo.decSerial (e.out.map Fin.val)).expansion s.cfg.order s.cfg.W ++ [.decEnd]))
        { s with enc := e } = .next { s with enc := e, dec := d } ∧
      d.out = S ∧ d.phase = .done)

/-- 41_decoder.md R141: the output length is the sum of the fields, so the fields of an encoder pass sum to the number
of bits encoded. -/
def Obligations.LengthConservation : Prop :=
  (∀ F : List Nat, (decodePass F).length = F.sum) ∧
  (∀ (cfg : Config) (S : List Bit), (encodePass cfg.MAX S).sum = S.length)

/-- 41_decoder.md R142: the bits that come from field `k` all have the value `k mod 2`, whatever the field values. -/
def Obligations.OutputParity : Prop :=
  ∀ F : List Nat, decodePass F = (F.mapIdx fun k v => List.replicate v (parityBit k)).flatten

/-! ## The step, the beat-level interface and STATUS -/

/-- At the command level the step executes the command that the host's next word spells (42_block_control.md R173,
00_scope.md R14), after taking the input from the queue. -/
def Obligations.CommandStepRunsDecodedCommand : Prop :=
  ∀ (s : State) (p : HostInput) (rest : List HostInput) (i : Instr), s.level = .command →
    s.inputs = p :: rest → p.rst = false → p.cmdValid = true → decode s.cfg.W p.cmdWord = .ok i →
    step s = exec i { s with inputs := rest }

/-- 70_reset_and_hazards.md R242: at the beat level an offered command is executed in this beat when nothing is
pending; otherwise it is not, the beat's transfers happen, and the offer is kept. -/
def Obligations.BeatAcceptsOnlyWhenNothingPending : Prop :=
  ∀ (s : State) (p : HostInput) (rest : List HostInput) (i : Instr), s.level = .beat →
    s.inputs = p :: rest → p.rst = false → p.cmdValid = true → decode s.cfg.W p.cmdWord = .ok i →
    (s.offered = none ∨ s.offered = some p.cmdWord) →
    (cmdReady s = true ↔ s.enc.pend = [] ∧ s.dec.remaining.val = 0) ∧
    (cmdReady s = true → step s = exec i { s with inputs := rest, offered := none }) ∧
    (cmdReady s = false →
      step s = .next { outputTransfers p { s with inputs := rest } with offered := some p.cmdWord })

/-- The word placed by `withFetchWord` is the command that the very next step executes, at both levels, in the state
in which the host has taken all pending output (log entry 21). -/
def Obligations.FetchWordRunsNext : Prop :=
  ∀ (s : State) (nbits w : Nat) (i : Instr), decode s.cfg.W (w % 2 ^ nbits) = .ok i →
    step (s.withFetchWord nbits w) = exec i (settle s)

/-- 70_reset_and_hazards.md R244: while a field is pending it is offered, a beat with `fo_ready = 1` moves it to
`enc_out`, a beat with `fo_ready = 0` leaves the encoder as it is, and no other encoder register changes. -/
def Obligations.FieldTransfer : Prop :=
  ∀ (s : State) (p : HostInput) (rest : List HostInput) (f : CountField s.cfg.W) (fs : List (CountField s.cfg.W)),
    s.level = .beat → s.inputs = p :: rest → p.rst = false → dutyBroken p s = false → s.InputsFit →
    s.enc.pend = f :: fs →
    foValid s = true ∧ foData s = some f ∧
    ∃ (e : EncUnit s.cfg.W) (d : DecUnit s.cfg.W) (o : Option Nat),
      step s = .next { s with enc := e, dec := d, offered := o, inputs := rest } ∧
      (p.foReady = true → e = { s.enc with out := s.enc.out ++ [f], pend := fs }) ∧
      (p.foReady = false → e = s.enc)

/-- 70_reset_and_hazards.md R245: while bits are pending `bo_data = dec_xval` is offered, a beat with `bo_ready = 1`
moves one copy to `dec_out`, a beat with `bo_ready = 0` leaves the decoder as it is. -/
def Obligations.BitTransfer : Prop :=
  ∀ (s : State) (p : HostInput) (rest : List HostInput), s.level = .beat →
    s.inputs = p :: rest → p.rst = false → dutyBroken p s = false → s.InputsFit → 0 < s.dec.remaining.val →
    boValid s = true ∧ boData s = s.dec.xval ∧
    ∃ (e : EncUnit s.cfg.W) (d : DecUnit s.cfg.W) (o : Option Nat) (n : CountField s.cfg.W),
      step s = .next { s with enc := e, dec := d, offered := o, inputs := rest } ∧
      n.val + 1 = s.dec.remaining.val ∧
      (p.boReady = true → d = { s.dec with out := s.dec.out ++ [s.dec.xval], remaining := n }) ∧
      (p.boReady = false → d = s.dec)

/-- 70_reset_and_hazards.md R241: the block keeps an offered field and an offered bit, with their data, until the
transfer happens. -/
def Obligations.OfferedOutputIsHeld : Prop :=
  ∀ (s t : State) (p : HostInput) (rest : List HostInput), s.level = .beat → s.inputs = p :: rest →
    p.rst = false → step s = .next t →
    (foValid s = true → p.foReady = false → foValid t = true ∧ (foData t).map Fin.val = (foData s).map Fin.val) ∧
    (boValid s = true → p.boReady = false → boValid t = true ∧ boData t = boData s)

/-- 60_exceptions.md R218: a beat with no command offered and no output pending changes no state; nor does a step with
no input at all (log entry 4). -/
def Obligations.IdleBeatChangesNothing : Prop :=
  ∀ s : State,
    (s.inputs = [] → step s = .next s) ∧
    (∀ p rest, s.inputs = p :: rest → p.rst = false → p.cmdValid = false → s.offered = none →
      s.enc.pend = [] → s.dec.remaining.val = 0 → step s = .next { s with inputs := rest })

/-- 10_state.md R34, 70_reset_and_hazards.md R247: every field of STATUS, at both levels, with the values of the phases
(10_state.md R24) and of the error codes (60_exceptions.md R200), and its reset value. -/
def Obligations.StatusFields : Prop :=
  (∀ (cfg : Config) (level : Level), statusWord (State.resetWith cfg level) = 0x0000#16) ∧
  (phaseCode .active = 0#2 ∧ phaseCode .done = 1#2 ∧ phaseCode .error = 2#2) ∧
  (errCodeValue .noFault = 0#4 ∧ errCodeValue .illegalCommand = 1#4 ∧ errCodeValue .phase = 2#4 ∧
    errCodeValue .truncatedInput = 3#4 ∧ errCodeValue .fieldMisaligned = 4#4 ∧ errCodeValue .countOverflow = 5#4) ∧
  ∀ s : State,
    (statusWord s).extractLsb' 0 2 = phaseCode s.enc.phase ∧
    (statusWord s).extractLsb' 2 2 = phaseCode s.dec.phase ∧
    (statusWord s).extractLsb' 4 4 = errCodeValue s.enc.err ∧
    (statusWord s).extractLsb' 8 4 = errCodeValue s.dec.err ∧
    ((statusWord s).getLsbD 12 = true ↔ s.level = .beat ∧ s.enc.pend ≠ []) ∧
    ((statusWord s).getLsbD 13 = true ↔ s.level = .beat ∧ 0 < s.dec.remaining.val) ∧
    (statusWord s).extractLsb' 14 2 = 0#2

/-- 70_reset_and_hazards.md R248: the two machines agree after reset; and run the beat-level machine on any beats, and
the command-level machine on the resets and accepted commands of that run, from states that agree: the two end in states
that agree. -/
def Obligations.LevelsAgree : Prop :=
  (∀ cfg : Config, Agrees (State.resetWith cfg .command) (State.resetWith cfg .beat)) ∧
  ∀ (A B B' : State) (k : Nat), Agrees A B → A.inputs = effectiveInputs k B →
    Host.Core.run Sys2Proof.core k B = .next B' →
    ∃ A', Host.Core.run Sys2Proof.core A.inputs.length A = .next A' ∧ Agrees A' B'

/-- 70_reset_and_hazards.md R250: with both outputs always taken, the next offered command is accepted within
`max(3, 1 + MAX)` beats of an acceptance; the accepted word is a new offer or one that has waited. The two `ready` pins
held at 1 are the spec's assumption on the host (log entry 18). -/
def Obligations.AcceptanceIsBounded : Prop :=
  ∀ (s : State) (w w' : Nat), s.level = .beat → s.Inv → cmdReady s = true →
    (s.offered = none ∨ s.offered = some w) → w < 2 ^ s.cfg.CW → w' < 2 ^ s.cfg.CW →
    s.inputs = offerWord w :: List.replicate (max 3 (1 + s.cfg.MAX)) (offerWord w') →
    ∃ k t, 1 ≤ k ∧ k ≤ max 3 (1 + s.cfg.MAX) ∧ Host.Core.run Sys2Proof.core k s = .next t ∧
      t.inputs.head? = some (offerWord w') ∧ takesEffect (offerWord w') t = true ∧
      dutyBroken (offerWord w') t = false

/-- 70_reset_and_hazards.md R251 (not normative): after a command accepted with nothing pending, the beats that the
output still takes, one for each pending field or bit, and none after a fault or for a unit in ERROR; and a beat with
both outputs taken takes one of them away. -/
def Obligations.BeatCosts : Prop :=
  (∀ (s t : State) (i : Instr), s.level = .beat → cmdReady s = true → exec i s = .next t →
    (i = .nop ∨ i = .encStart ∨ i = .decStart ∨ i = .decEnd → pendingBeats t = 0) ∧
    ((∃ u, phaseOf u s ≠ .error ∧ phaseOf u t = .error) → pendingBeats t = 0) ∧
    ((∃ u, i.unit = some u ∧ phaseOf u s = .error) → pendingBeats t = 0) ∧
    (∀ b, i = .encBit b → s.enc.phase = .active → pendingBeats t =
      if b ≠ s.enc.cur then 1 else if s.enc.count.val = s.cfg.MAX then 2 else 0) ∧
    (i = .encEnd → s.enc.phase = .active → pendingBeats t = 1) ∧
    (∀ f : CountField s.cfg.W, i = .decField f.val → s.dec.phase = .active → s.dec.nbits = 0 →
      pendingBeats t = f.val) ∧
    (∀ c, i = .decBit c → s.dec.phase = .active → pendingBeats t =
      if s.dec.nbits + 1 = s.cfg.W then (accumulate s.cfg.order s.dec.acc s.dec.nbits c).val else 0)) ∧
  (∀ (s : State) (p : HostInput), p.foReady = true → p.boReady = true →
    pendingBeats (outputTransfers p s) = pendingBeats s - 1)
end

