-- ==== Sys2Proof/Laws/State.lean ====
section
/-! SUPPORT. What each named operation leaves alone, one lemma per field (10_state.md R25; 42_block_control.md R174):
later proofs rewrite with these and never unfold a record update. -/

namespace Sys2Proof.Machine

variable {W : Nat}

/-! The values of the named fields (10_state.md R39). -/

@[simp] theorem zeroField_val : (zeroField W).val = 0 := rfl
@[simp] theorem oneField_val (c : Config) : (oneField c).val = 1 := rfl
@[simp] theorem maxField_val (c : Config) : (maxField c).val = c.MAX := rfl
@[simp] theorem countUp_val (f : CountField W) (h : f.val + 1 < 2 ^ W) : (countUp f h).val = f.val + 1 := rfl
@[simp] theorem countDown_val (f : CountField W) : (countDown f).val = f.val - 1 := rfl
theorem fieldOf_val {n : Nat} (h : n < 2 ^ W) : (fieldOf W n).val = n := Nat.mod_eq_of_lt h
@[simp] theorem fieldOf_self (f : CountField W) : fieldOf W f.val = f := Fin.ext (fieldOf_val f.isLt)

/-- A field is at most `MAX` (10_state.md R27, R39). -/
theorem field_le_MAX {c : Config} (f : CountField c.W) : f.val ≤ c.MAX := Nat.le_sub_one_of_lt f.isLt

/-! Fault entry. -/

@[simp] theorem raiseFault_enc (code : ErrCode) (s : State) :
    raiseFault .enc code s = { s with enc := s.enc.faulted code } := rfl
@[simp] theorem raiseFault_dec (code : ErrCode) (s : State) :
    raiseFault .dec code s = { s with dec := s.dec.faulted code } := rfl
@[simp] theorem raiseEnc_eq (code : ErrCode) (e : EncUnit W) : raiseEnc code e = e.faulted code := rfl
@[simp] theorem raiseDec_eq (code : ErrCode) (d : DecUnit W) : raiseDec code d = d.faulted code := rfl

@[simp] theorem encFaulted_phase (code : ErrCode) (e : EncUnit W) : (e.faulted code).phase = .error := rfl
@[simp] theorem encFaulted_cur (code : ErrCode) (e : EncUnit W) : (e.faulted code).cur = e.cur := rfl
@[simp] theorem encFaulted_count (code : ErrCode) (e : EncUnit W) : (e.faulted code).count = e.count := rfl
@[simp] theorem encFaulted_out (code : ErrCode) (e : EncUnit W) : (e.faulted code).out = e.out := rfl
@[simp] theorem encFaulted_pend (code : ErrCode) (e : EncUnit W) : (e.faulted code).pend = e.pend := rfl
@[simp] theorem decFaulted_phase (code : ErrCode) (d : DecUnit W) : (d.faulted code).phase = .error := rfl
@[simp] theorem decFaulted_cur (code : ErrCode) (d : DecUnit W) : (d.faulted code).cur = d.cur := rfl
@[simp] theorem decFaulted_acc (code : ErrCode) (d : DecUnit W) : (d.faulted code).acc = d.acc := rfl
@[simp] theorem decFaulted_nbits (code : ErrCode) (d : DecUnit W) : (d.faulted code).nbits = d.nbits := rfl
@[simp] theorem decFaulted_out (code : ErrCode) (d : DecUnit W) : (d.faulted code).out = d.out := rfl
@[simp] theorem decFaulted_xval (code : ErrCode) (d : DecUnit W) : (d.faulted code).xval = d.xval := rfl
@[simp] theorem decFaulted_remaining (code : ErrCode) (d : DecUnit W) :
    (d.faulted code).remaining = d.remaining := rfl

/-! START and reset. -/

@[simp] theorem startEnc_eq (e : EncUnit W) : startEnc e =
    { phase := .active, cur := false, count := zeroField W, err := .noFault, out := [], pend := e.pend } := rfl
@[simp] theorem startDec_eq (d : DecUnit W) : startDec d =
    { phase := .active, cur := false, acc := zeroField W, nbits := 0, err := .noFault, out := [],
      xval := d.xval, remaining := d.remaining } := rfl

@[simp] theorem resetBlock_cfg (s : State) : (resetBlock s).cfg = s.cfg := rfl
@[simp] theorem resetBlock_level (s : State) : (resetBlock s).level = s.level := rfl
@[simp] theorem resetBlock_inputs (s : State) : (resetBlock s).inputs = s.inputs := rfl
@[simp] theorem resetBlock_enc (s : State) : (resetBlock s).enc = EncUnit.reset := rfl
@[simp] theorem resetBlock_dec (s : State) : (resetBlock s).dec = DecUnit.reset := rfl
@[simp] theorem resetBlock_offered (s : State) : (resetBlock s).offered = none := rfl

/-! Emission and expansion. -/

@[simp] theorem emitField_eq (l : Level) (v : CountField W) (e : EncUnit W) : emitField l v e = e.afterFields l [v] := rfl
@[simp] theorem afterFields_phase (l : Level) (fs : List (CountField W)) (e : EncUnit W) :
    (e.afterFields l fs).phase = e.phase := by cases l <;> rfl
@[simp] theorem afterFields_cur (l : Level) (fs : List (CountField W)) (e : EncUnit W) :
    (e.afterFields l fs).cur = e.cur := by cases l <;> rfl
@[simp] theorem afterFields_count (l : Level) (fs : List (CountField W)) (e : EncUnit W) :
    (e.afterFields l fs).count = e.count := by cases l <;> rfl
@[simp] theorem afterFields_err (l : Level) (fs : List (CountField W)) (e : EncUnit W) :
    (e.afterFields l fs).err = e.err := by cases l <;> rfl
@[simp] theorem afterFields_afterFields (l : Level) (fs gs : List (CountField W)) (e : EncUnit W) :
    (e.afterFields l fs).afterFields l gs = e.afterFields l (fs ++ gs) := by
  cases l <;> simp [EncUnit.afterFields]
@[simp] theorem afterField_phase (l : Level) (v : CountField W) (d : DecUnit W) :
    (d.afterField l v).phase = d.phase := by cases l <;> rfl
@[simp] theorem afterField_cur (l : Level) (v : CountField W) (d : DecUnit W) :
    (d.afterField l v).cur = !d.cur := by cases l <;> rfl
@[simp] theorem afterField_acc (l : Level) (v : CountField W) (d : DecUnit W) :
    (d.afterField l v).acc = d.acc := by cases l <;> rfl
@[simp] theorem afterField_nbits (l : Level) (v : CountField W) (d : DecUnit W) :
    (d.afterField l v).nbits = d.nbits := by cases l <;> rfl
@[simp] theorem afterField_err (l : Level) (v : CountField W) (d : DecUnit W) :
    (d.afterField l v).err = d.err := by cases l <;> rfl

/-! A beat's transfers. -/

@[simp] theorem outputTransfers_cfg (p : HostInput) (s : State) : (outputTransfers p s).cfg = s.cfg := rfl
@[simp] theorem outputTransfers_level (p : HostInput) (s : State) : (outputTransfers p s).level = s.level := rfl
@[simp] theorem outputTransfers_offered (p : HostInput) (s : State) :
    (outputTransfers p s).offered = s.offered := rfl
@[simp] theorem outputTransfers_inputs (p : HostInput) (s : State) : (outputTransfers p s).inputs = s.inputs := rfl
@[simp] theorem outputTransfers_enc (p : HostInput) (s : State) :
    (outputTransfers p s).enc = if p.foReady then transferField s.enc else s.enc := rfl
@[simp] theorem outputTransfers_dec (p : HostInput) (s : State) :
    (outputTransfers p s).dec = if p.boReady then transferBit s.dec else s.dec := rfl

@[simp] theorem transferField_phase (e : EncUnit W) : (transferField e).phase = e.phase := by
  unfold transferField; split <;> rfl
@[simp] theorem transferField_cur (e : EncUnit W) : (transferField e).cur = e.cur := by
  unfold transferField; split <;> rfl
@[simp] theorem transferField_count (e : EncUnit W) : (transferField e).count = e.count := by
  unfold transferField; split <;> rfl
@[simp] theorem transferField_err (e : EncUnit W) : (transferField e).err = e.err := by
  unfold transferField; split <;> rfl
/-- A transfer moves a field and loses none (20_memory.md R51). -/
@[simp] theorem transferField_fields (e : EncUnit W) :
    (transferField e).out ++ (transferField e).pend = e.out ++ e.pend := by
  unfold transferField; split <;> simp [*]
@[simp] theorem transferField_pend (e : EncUnit W) : (transferField e).pend = e.pend.tail := by
  unfold transferField; split <;> simp [*]

@[simp] theorem transferBit_phase (d : DecUnit W) : (transferBit d).phase = d.phase := by
  unfold transferBit; split <;> rfl
@[simp] theorem transferBit_cur (d : DecUnit W) : (transferBit d).cur = d.cur := by
  unfold transferBit; split <;> rfl
@[simp] theorem transferBit_acc (d : DecUnit W) : (transferBit d).acc = d.acc := by
  unfold transferBit; split <;> rfl
@[simp] theorem transferBit_nbits (d : DecUnit W) : (transferBit d).nbits = d.nbits := by
  unfold transferBit; split <;> rfl
@[simp] theorem transferBit_err (d : DecUnit W) : (transferBit d).err = d.err := by
  unfold transferBit; split <;> rfl
@[simp] theorem transferBit_xval (d : DecUnit W) : (transferBit d).xval = d.xval := by
  unfold transferBit; split <;> rfl
@[simp] theorem transferBit_remaining (d : DecUnit W) : (transferBit d).remaining.val = d.remaining.val - 1 := by
  unfold transferBit; split <;> simp [*]
/-- A transfer moves a bit and loses none (20_memory.md R51). -/
@[simp] theorem transferBit_bits (d : DecUnit W) :
    (transferBit d).out ++ List.replicate (d.remaining.val - 1) d.xval
      = d.out ++ List.replicate d.remaining.val d.xval := by
  unfold transferBit
  split
  · simp [*]
  · obtain ⟨n, hn⟩ : ∃ n, d.remaining.val = n + 1 := ⟨d.remaining.val - 1, by omega⟩
    simp [emitBit, hn, List.replicate_succ]

end Sys2Proof.Machine
end

