-- ==== Sys2Proof/Laws/Ops.lean ====
section
/-! SUPPORT. For each shared operation and each command's own rule, once, everything it does; provers cite these and
do not unfold the operation. -/

namespace Sys2Proof.Machine

variable {W : Nat}

/-- Emitting `n` copies of a bit appends them to `dec_out` and does nothing else (41_decoder.md R132). -/
theorem emitCopies_eq (n : Nat) (b : Bit) (d : DecUnit W) :
    emitCopies n b d = { d with out := d.out ++ List.replicate n b } := by
  induction n generalizing d with
  | zero => simp [emitCopies]
  | succ n ih => simp [emitCopies, ih, emitBit, List.replicate_succ]

@[simp] theorem expand_eq (l : Level) (v : CountField W) (d : DecUnit W) : expand l v d = d.afterField l v := by
  cases l <;> simp [expand, DecUnit.afterField, emitCopies_eq, flipDecCur]

theorem encFlip_eq (cfg : Config) (l : Level) (e : EncUnit cfg.W) : encFlip cfg l e =
    { e.afterFields l [e.count] with count := oneField cfg, cur := !e.cur } := rfl

theorem encEscape_eq (cfg : Config) (l : Level) (e : EncUnit cfg.W) : encEscape cfg l e =
    { e.afterFields l [maxField cfg, zeroField cfg.W] with count := oneField cfg } := by
  simp [encEscape]

/-- A field reader within its bounds accumulates without truncation (10_state.md R29; 41_decoder.md R133). -/
theorem accumulate_val (order : BitOrder) {acc : CountField W} {nbits : Nat} (c : Bit) (hn : nbits < W)
    (ha : acc.val < 2 ^ nbits) : (accumulate order acc nbits c).val =
      match order with
      | .msbFirst => 2 * acc.val + c.toNat
      | .lsbFirst => acc.val + c.toNat * 2 ^ nbits := by
  have hpow : 2 ^ (nbits + 1) ≤ 2 ^ W := Nat.pow_le_pow_right (by decide) hn
  rw [Nat.pow_succ] at hpow
  cases order <;> cases c <;> simp only [accumulate] <;> apply fieldOf_val <;> simp <;> omega

/-- A field reader within its bounds stays within them (10_state.md R29). -/
theorem accumulate_lt (order : BitOrder) {acc : CountField W} {nbits : Nat} (c : Bit) (hn : nbits < W)
    (ha : acc.val < 2 ^ nbits) : (accumulate order acc nbits c).val < 2 ^ (nbits + 1) := by
  rw [accumulate_val order c hn ha, Nat.pow_succ]
  cases order <;> cases c <;> simp <;> omega

/-! The common dispatch checks (42_block_control.md R173). -/

theorem whenEncActive_error {e : EncUnit W} (h : e.phase = .error) (rule : EncUnit W → EncUnit W) :
    whenEncActive rule e = e := by simp [whenEncActive, h]

theorem whenEncActive_done {e : EncUnit W} (h : e.phase = .done) (rule : EncUnit W → EncUnit W) :
    whenEncActive rule e = e.faulted .phase := by simp [whenEncActive, h]

theorem whenEncActive_active {e : EncUnit W} (h : e.phase = .active) (rule : EncUnit W → EncUnit W) :
    whenEncActive rule e = rule e := by simp [whenEncActive, h]

/-- The three things the encoder's dispatch checks can do. -/
theorem whenEncActive_cases (rule : EncUnit W → EncUnit W) (e : EncUnit W) :
    (e.phase = .error ∧ whenEncActive rule e = e) ∨
    (e.phase = .done ∧ whenEncActive rule e = e.faulted .phase) ∨
    (e.phase = .active ∧ whenEncActive rule e = rule e) := by
  cases h : e.phase <;> simp [whenEncActive, h]

theorem whenDecActive_error {d : DecUnit W} (h : d.phase = .error) (rule : DecUnit W → DecUnit W) :
    whenDecActive rule d = d := by simp [whenDecActive, h]

theorem whenDecActive_done {d : DecUnit W} (h : d.phase = .done) (rule : DecUnit W → DecUnit W) :
    whenDecActive rule d = d.faulted .phase := by simp [whenDecActive, h]

theorem whenDecActive_active {d : DecUnit W} (h : d.phase = .active) (rule : DecUnit W → DecUnit W) :
    whenDecActive rule d = rule d := by simp [whenDecActive, h]

/-- The three things the decoder's dispatch checks can do. -/
theorem whenDecActive_cases (rule : DecUnit W → DecUnit W) (d : DecUnit W) :
    (d.phase = .error ∧ whenDecActive rule d = d) ∨
    (d.phase = .done ∧ whenDecActive rule d = d.faulted .phase) ∨
    (d.phase = .active ∧ whenDecActive rule d = rule d) := by
  cases h : d.phase <;> simp [whenDecActive, h]

/-- The two things a reserved opcode of the encoder can do (42_block_control.md R171). -/
theorem reservedEncRule_cases (e : EncUnit W) :
    (e.phase = .error ∧ reservedEncRule e = e) ∨
    (e.phase ≠ .error ∧ reservedEncRule e = e.faulted .illegalCommand) := by
  cases h : e.phase <;> simp [reservedEncRule, h]

/-- The two things a reserved opcode of the decoder can do (42_block_control.md R171). -/
theorem reservedDecRule_cases (d : DecUnit W) :
    (d.phase = .error ∧ reservedDecRule d = d) ∨
    (d.phase ≠ .error ∧ reservedDecRule d = d.faulted .illegalCommand) := by
  cases h : d.phase <;> simp [reservedDecRule, h]

/-! The commands' own rules. -/

/-- The three things ENC.BIT can do in phase ACTIVE (40_encoder.md R102 to R106): a `W`-bit counter never fails the
overflow check (R107). -/
theorem encBitRule_cases (cfg : Config) (l : Level) (b : Bit) (e : EncUnit cfg.W) :
    (b ≠ e.cur ∧ encBitRule cfg l b e =
      { e.afterFields l [e.count] with count := oneField cfg, cur := !e.cur }) ∨
    (b = e.cur ∧ e.count.val = cfg.MAX ∧ encBitRule cfg l b e =
      { e.afterFields l [maxField cfg, zeroField cfg.W] with count := oneField cfg }) ∨
    (b = e.cur ∧ e.count.val ≠ cfg.MAX ∧ ∃ h : e.count.val + 1 < 2 ^ cfg.W,
      encBitRule cfg l b e = { e with count := countUp e.count h }) := by
  have hle : ¬ cfg.MAX < e.count.val := Nat.not_lt.2 (field_le_MAX e.count)
  by_cases hb : b = e.cur
  · by_cases hc : e.count.val = cfg.MAX
    · exact .inr (.inl ⟨hb, hc, by simp [encBitRule, hb, hc, encEscape_eq]⟩)
    · exact .inr (.inr ⟨hb, hc, countUp_fits hc, by simp [encBitRule, hle, hb, hc, encIncrement]⟩)
  · exact .inl ⟨hb, by simp [encBitRule, hle, hb, encFlip_eq]⟩

/-- What ENC.END does in phase ACTIVE (40_encoder.md R108). -/
theorem encEndRule_eq (l : Level) (e : EncUnit W) :
    encEndRule l e = { e.afterFields l [e.count] with phase := .done } := rfl

/-- The two things DEC.BIT can do in phase ACTIVE (41_decoder.md R133). -/
theorem decBitRule_cases (order : BitOrder) (l : Level) (c : Bit) (d : DecUnit W) :
    (d.nbits + 1 ≠ W ∧ decBitRule order l c d =
      { d with acc := accumulate order d.acc d.nbits c, nbits := d.nbits + 1 }) ∨
    (d.nbits + 1 = W ∧ decBitRule order l c d =
      { d.afterField l (accumulate order d.acc d.nbits c) with acc := zeroField W, nbits := 0 }) := by
  unfold decBitRule
  by_cases h : d.nbits + 1 = W
  · exact .inr ⟨h, by rw [if_pos h, expand_eq]; cases l <;> rfl⟩
  · exact .inl ⟨h, by rw [if_neg h]⟩

/-- The two things DEC.FIELD can do in phase ACTIVE (41_decoder.md R136). -/
theorem decFieldRule_cases (l : Level) (f : CountField W) (d : DecUnit W) :
    (d.nbits ≠ 0 ∧ decFieldRule l f d = d.faulted .fieldMisaligned) ∨
    (d.nbits = 0 ∧ decFieldRule l f d = d.afterField l f) := by
  by_cases h : d.nbits = 0 <;> simp [decFieldRule, h]

/-- The two things DEC.END can do in phase ACTIVE (41_decoder.md R137). -/
theorem decEndRule_cases (d : DecUnit W) :
    (d.nbits ≠ 0 ∧ decEndRule d = d.faulted .truncatedInput) ∨
    (d.nbits = 0 ∧ decEndRule d = { d with phase := .done }) := by
  by_cases h : d.nbits = 0 <;> simp [decEndRule, h]

end Sys2Proof.Machine
end

