-- ==== Sys2Proof/Laws/Exec.lean ====
section
/-! SUPPORT. What executing a command leaves alone, and what a step can do, once. -/

namespace Sys2Proof.Machine

/-- Every command answers a next state (42_block_control.md R173). -/
theorem exec_answers_next (i : Instr) (s : State) : ∃ t, exec i s = .next t := by
  cases i <;> exact ⟨_, rfl⟩

/-- The encoder that a command leaves; it depends on the configuration, the level and the encoder only
(42_block_control.md R174). -/
def encAfter (cfg : Config) (level : Level) (e : EncUnit cfg.W) : Instr → EncUnit cfg.W
  | .encStart => startEnc e
  | .encBit b => whenEncActive (encBitRule cfg level b) e
  | .encEnd => whenEncActive (encEndRule level) e
  | .reservedEnc _ => reservedEncRule e
  | _ => e

/-- The decoder that a command leaves (42_block_control.md R174). -/
def decAfter (cfg : Config) (level : Level) (d : DecUnit cfg.W) : Instr → DecUnit cfg.W
  | .decStart => startDec d
  | .decBit c => whenDecActive (decBitRule cfg.order level c) d
  | .decField f => whenDecActive (decFieldRule level (fieldOf cfg.W f)) d
  | .decEnd => whenDecActive decEndRule d
  | .reservedDec8 => reservedDecRule d
  | .reservedDecD => reservedDecRule d
  | .reservedDecEF _ => reservedDecRule d
  | _ => d

/-- Everything a command can do: each unit becomes a function of itself, and nothing else changes
(42_block_control.md R174). -/
theorem exec_eq (i : Instr) (s : State) : exec i s = .next { s with
    enc := encAfter s.cfg s.level s.enc i, dec := decAfter s.cfg s.level s.dec i } := by
  cases i <;> rfl

/-- A command of the other unit, and NOP, leave the encoder as it is. -/
theorem encAfter_other {cfg : Config} {level : Level} {e : EncUnit cfg.W} {i : Instr} (h : i.unit ≠ some .enc) :
    encAfter cfg level e i = e := by
  cases i <;> first | rfl | exact absurd rfl h

/-- A command of the other unit, and NOP, leave the decoder as it is. -/
theorem decAfter_other {cfg : Config} {level : Level} {d : DecUnit cfg.W} {i : Instr} (h : i.unit ≠ some .dec) :
    decAfter cfg level d i = d := by
  cases i <;> first | rfl | exact absurd rfl h

/-- No command writes the configuration, the level, the offer or the host's inputs. -/
theorem exec_frame {i : Instr} {s t : State} (h : exec i s = .next t) :
    t.cfg = s.cfg ∧ t.level = s.level ∧ t.offered = s.offered ∧ t.inputs = s.inputs := by
  rw [exec_eq] at h
  cases h
  exact ⟨rfl, rfl, rfl, rfl⟩

/-- Everything a step that answers a next state can have done: nothing, a reset, one command (at once at the command
level; at the beat level with nothing pending and the host's duty kept), or a beat's transfers. -/
theorem step_cases {s t : State} (h : step s = .next t) :
    (s.inputs = [] ∧ t = s) ∨ ∃ p rest, s.inputs = p :: rest ∧
      ((p.rst = true ∧ t = resetBlock { s with inputs := rest }) ∨
       (p.rst = false ∧ p.cmdValid = true ∧ s.level = .command ∧
          ∃ i, decode s.cfg.W p.cmdWord = .ok i ∧ exec i { s with inputs := rest } = .next t) ∨
       (p.rst = false ∧ p.cmdValid = false ∧ s.level = .command ∧ t = { s with inputs := rest }) ∨
       (p.rst = false ∧ p.cmdValid = true ∧ s.level = .beat ∧ dutyBroken p s = false ∧ cmdReady s = true ∧
          ∃ i, decode s.cfg.W p.cmdWord = .ok i ∧
            exec i { s with inputs := rest, offered := none } = .next t) ∨
       (p.rst = false ∧ p.cmdValid = true ∧ s.level = .beat ∧ dutyBroken p s = false ∧ cmdReady s = false ∧
          (∃ i, decode s.cfg.W p.cmdWord = .ok i) ∧
          t = { outputTransfers p { s with inputs := rest } with offered := some p.cmdWord }) ∨
       (p.rst = false ∧ p.cmdValid = false ∧ s.level = .beat ∧ dutyBroken p s = false ∧
          t = outputTransfers p { s with inputs := rest })) := by
  unfold step at h
  split at h
  · cases h; exact .inl ⟨‹_›, rfl⟩
  · rename_i p rest hin
    refine .inr ⟨p, rest, hin, ?_⟩
    unfold takeInput at h
    split at h
    · rename_i hl
      unfold commandInput at h
      cases hr : p.rst <;> simp only [hr] at h
      · cases hv : p.cmdValid <;> simp only [hv] at h
        · cases h; simp_all
        · simp only [runWord] at h
          cases hd : decode s.cfg.W p.cmdWord <;> simp_all
      · cases h; simp_all
    · rename_i hl
      have hduty : dutyBroken p { s with inputs := rest } = dutyBroken p s := rfl
      have hready : cmdReady { s with inputs := rest } = cmdReady s := rfl
      unfold beatInput at h
      rw [hduty, hready] at h
      cases hr : p.rst <;> simp only [hr] at h
      · cases hb : dutyBroken p s <;> simp only [hb] at h
        · cases hv : p.cmdValid <;> simp only [hv] at h
          · cases h; simp_all
          · cases hd : decode s.cfg.W p.cmdWord <;> simp only [hd] at h
            · split at h <;> simp_all
            · cases hc : cmdReady s <;> simp_all
        · simp at h
      · cases h; simp_all

end Sys2Proof.Machine
end

