-- ==== Sys2Proof/Laws/PerInstr.lean ====
section
/-! SUPPORT. Per-command statements, one lemma a constructor: the word of a well-formed command has `CW` bits
(30_encoding.md R72). -/

namespace Sys2Proof.Laws.Fits

/-- The word of the command fits in `CW = W + 4` bits at every width at which the command is well-formed. -/
def Statement (i : Instr) : Prop :=
  ∀ W, 1 ≤ W → i.wellFormed W = true → encode i < 2 ^ (W + 4)

/-- A word below 32 fits at every width: `CW` is at least 5. -/
theorem fits_of_lt_32 {w W : Nat} (h : w < 32) (hW : 1 ≤ W) : w < 2 ^ (W + 4) :=
  Nat.lt_of_lt_of_le h (Nat.pow_le_pow_right (by decide) (by omega) : 2 ^ 5 ≤ 2 ^ (W + 4))

theorem nop : Statement .nop := fun _ hW _ => fits_of_lt_32 (by decide) hW
theorem encStart : Statement .encStart := fun _ hW _ => fits_of_lt_32 (by decide) hW
theorem encBit (b : Bit) : Statement (.encBit b) := fun _ hW _ =>
  fits_of_lt_32 (by cases b <;> decide) hW
theorem encEnd : Statement .encEnd := fun _ hW _ => fits_of_lt_32 (by decide) hW
theorem reservedEnc (low : Fin 4) : Statement (.reservedEnc low) := fun _ hW _ =>
  fits_of_lt_32 (by simp only [encode, Instr.opcode, Instr.operandBits]; omega) hW
theorem reservedDec8 : Statement .reservedDec8 := fun _ hW _ => fits_of_lt_32 (by decide) hW
theorem decStart : Statement .decStart := fun _ hW _ => fits_of_lt_32 (by decide) hW
theorem decBit (c : Bit) : Statement (.decBit c) := fun _ hW _ =>
  fits_of_lt_32 (by cases c <;> decide) hW
theorem decEnd : Statement .decEnd := fun _ hW _ => fits_of_lt_32 (by decide) hW
theorem decField (f : Nat) : Statement (.decField f) := by
  intro W _ h
  have hf : f < 2 ^ W := by simpa [Instr.wellFormed] using h
  simp only [encode, Instr.opcode, Instr.operandBits, Nat.pow_add]
  omega
theorem reservedDecD : Statement .reservedDecD := fun _ hW _ => fits_of_lt_32 (by decide) hW
theorem reservedDecEF (low : Fin 2) : Statement (.reservedDecEF low) := fun _ hW _ =>
  fits_of_lt_32 (by simp only [encode, Instr.opcode, Instr.operandBits]; omega) hW

end Sys2Proof.Laws.Fits
end

