-- ==== Sys2Proof/Tests/Slice0.lean ====
section
/-! SUPPORT. Tests. Expected values are from 95_test_vectors.md (the vector's name stands beside each test) or written
out by hand from the rule named; and, for each statement with hypotheses, a witness that meets them. -/

namespace Sys2Proof.Tests

open Sys2Proof Sys2Proof.Machine

/-! ## Helpers -/

/-- The state of an outcome that is a next state. -/
def next? : Host.Outcome State Fault Refusal → Option State
  | .next t => some t
  | .fault _ => none
  | .refused _ => none

/-- Whether an outcome is the refusal `r`. -/
def refusedWith (r : Refusal) : Host.Outcome State Fault Refusal → Bool
  | .next _ => false
  | .fault _ => false
  | .refused q => decide (q = r)

/-- One step on a command word. -/
def after (w : Nat) (s : State) : Option State := next? (step { s with inputs := [offerWord w] })

/-- The reset state (`W = 4`, command level) with another encoder, and with another decoder. -/
def encIs (e : EncUnit 4) : State := { State.reset with enc := e }
def decIs (d : DecUnit 4) : State := { State.reset with dec := d }

/-- An encoder and a decoder (`W = 4`) with the registers that matter, the rest at reset. -/
def enc (phase : Phase) (cur : Bit) (count : Nat) (out : List Nat) : EncUnit 4 :=
  { EncUnit.reset with phase := phase, cur := cur, count := fieldOf 4 count, out := out.map (fieldOf 4) }
def dec (phase : Phase) (cur : Bit) (acc nbits : Nat) (out : List Bit) : DecUnit 4 :=
  { DecUnit.reset with phase := phase, cur := cur, acc := fieldOf 4 acc, nbits := nbits, out := out }

/-- An encoder and a decoder in ERROR with a code. -/
def encErr (code : ErrCode) : EncUnit 4 := { EncUnit.reset with phase := .error, err := code }
def decErr (code : ErrCode) : DecUnit 4 := { DecUnit.reset with phase := .error, err := code }

/-- `W = 1`, and `W = 4` with LSB_FIRST. -/
def cfg1 : Config := ⟨1, .msbFirst, none, by decide⟩
def cfgLsb : Config := ⟨4, .lsbFirst, none, by decide⟩

/-- The command-level reset state at LSB_FIRST with another decoder. -/
def decLsb (d : DecUnit 4) : State := { State.resetWith cfgLsb .command with dec := d }

/-- The reset state at the beat level. -/
def beat0 : State := State.resetWith Config.reference .beat

/-- An idle beat with both outputs taken, with neither taken, and the input that offers `w` with neither taken. -/
def idle : HostInput := { rst := false, cmdValid := false, cmdWord := 0, foReady := true, boReady := true }
def stall : HostInput := { rst := false, cmdValid := false, cmdWord := 0, foReady := false, boReady := false }
def offerStalled (w : Nat) : HostInput :=
  { rst := false, cmdValid := true, cmdWord := w, foReady := false, boReady := false }

/-- A beat-level state with the field 2 pending, and one with three zeros pending. -/
def pend2 : State := { beat0 with enc := { enc .active true 1 [] with pend := [fieldOf 4 2] } }
def rem3 : State := { beat0 with dec := { dec .active true 0 0 [] with remaining := fieldOf 4 3 } }

/-! ## Well-formedness: the one check refuses an ill-formed command (30_encoding.md R73, R79) -/

theorem test_wellFormed_refuses_field_above_max : (Instr.decField 16).wellFormed 4 = false := by decide
theorem test_wellFormed_refuses_field_above_max_w1 : (Instr.decField 2).wellFormed 1 = false := by decide
theorem test_wellFormed_accepts_max : (Instr.decField 15).wellFormed 4 = true := by decide

/-! ## Decoding: words written out bit by bit from 30_encoding.md R73 to R75 (`cmd[7:4]` then `cmd[3:0]` at `W = 4`) -/

theorem test_decode_nop : decode 4 0b0000_0000 = .ok .nop := by decide
theorem test_decode_nop_ignored : decode 4 0b1111_0000 = .ok .nop := by decide
theorem test_decode_encStart : decode 4 0b0000_0001 = .ok .encStart := by decide
theorem test_decode_encBit : decode 4 0b0001_0010 = .ok (.encBit true) := by decide
/-- E15: the ignored bits 111 above `b`. -/
theorem test_decode_encBit_ignored : decode 4 0b1110_0010 = .ok (.encBit false) := by decide
theorem test_decode_encEnd : decode 4 0b0000_0011 = .ok .encEnd := by decide
theorem test_decode_reservedEnc :
    decode 4 0b0000_0100 = .ok (.reservedEnc 0) ∧ decode 4 0b0000_0111 = .ok (.reservedEnc 3) := by decide
theorem test_decode_reservedDec8 : decode 4 0b0000_1000 = .ok .reservedDec8 := by decide
theorem test_decode_decStart : decode 4 0b0000_1001 = .ok .decStart := by decide
theorem test_decode_decBit : decode 4 0b0001_1010 = .ok (.decBit true) := by decide
theorem test_decode_decEnd : decode 4 0b0000_1011 = .ok .decEnd := by decide
theorem test_decode_decField : decode 4 0b1010_1100 = .ok (.decField 10) := by decide
theorem test_decode_decField_w8 : decode 8 0b1111_1110_1100 = .ok (.decField 254) := by decide
theorem test_decode_reservedDecD : decode 4 0b0000_1101 = .ok .reservedDecD := by decide
theorem test_decode_reservedDecEF :
    decode 4 0b0000_1110 = .ok (.reservedDecEF 0) ∧ decode 4 0b0000_1111 = .ok (.reservedDecEF 1) := by decide
/-- A 9-bit number is no command word at `W = 4` (30_encoding.md R72). -/
theorem test_decode_rejects_wide : decode 4 0b1_0000_0000 = .error .wordTooWide := by decide
theorem test_decodeTableWord : decodeTableWord 8 0x2C = some (.decField 2) := by decide
/-- 30_encoding.md R82: `dec.field v` is `0x0C | v<<4`. -/
theorem test_encode_decField : encode (.decField 15) = 0xFC := by decide

/-! ## The encoder's commands -/

/-- E2. -/
theorem test_encBit_leading_one : after 0x12 .reset = some (encIs (enc .active true 1 [0])) := by decide
/-- E4. -/
theorem test_encBit_escape :
    after 0x02 (encIs (enc .active false 15 [])) = some (encIs (enc .active false 1 [15, 0])) := by decide
/-- E8. -/
theorem test_encEnd_flush :
    after 0x03 (encIs (enc .active true 15 [0])) = some (encIs (enc .done true 15 [0, 15])) := by decide
/-- E11. -/
theorem test_encEnd_in_done : after 0x03 (encIs (enc .done false 0 [0])) =
    some (encIs { enc .done false 0 [0] with phase := .error, err := .phase }) := by decide
/-- E14. -/
theorem test_encStart_no_flush : after 0x01 (encIs (enc .active true 5 [0])) = some .reset := by decide
/-- E13. -/
theorem test_encStart_recovers :
    after 0x01 (encIs { encErr .phase with out := [fieldOf 4 0] }) = some .reset := by decide

/-! ## The decoder's commands -/

/-- Y3. -/
theorem test_decBit_last_bit : after 0x1A (decIs (dec .active false 7 3 [])) =
    some (decIs (dec .active true 0 0 (List.replicate 15 false))) := by decide
/-- Y14, its last command: field 12 at LSB_FIRST (acc 4, nbits 3 after the bits 0, 0, 1). -/
theorem test_decBit_lsb_first :
    after 0x1A (decLsb (dec .active false 4 3 [])) =
      some (decLsb (dec .active true 0 0 (List.replicate 12 false))) := by decide
/-- Y5. -/
theorem test_decField_expands :
    after 0x2C (decIs (dec .active true 0 0 [])) = some (decIs (dec .active false 0 0 [true, true])) := by decide
/-- Y8. -/
theorem test_decField_misaligned : after 0x3C (decIs (dec .active false 1 1 [])) =
    some (decIs { decErr .fieldMisaligned with acc := fieldOf 4 1, nbits := 1 }) := by decide
/-- Y10. -/
theorem test_decEnd_truncated : after 0x0B (decIs (dec .active false 2 2 [])) =
    some (decIs { decErr .truncatedInput with acc := fieldOf 4 2, nbits := 2 }) := by decide
/-- Y9. -/
theorem test_decEnd_done : after 0x0B .reset = some (decIs (dec .done false 0 0 [])) := by decide
/-- Y13. -/
theorem test_decStart_recovers :
    after 0x09 (decIs { decErr .truncatedInput with acc := fieldOf 4 2, nbits := 2 }) = some .reset := by decide
/-- K13: DEC.START leaves the encoder in ERROR. -/
theorem test_decStart_other_unit :
    after 0x09 { encIs (encErr .phase) with dec := dec .active true 1 1 [true] } = some (encIs (encErr .phase)) := by
  decide

/-! ## Block control -/

/-- K2. -/
theorem test_nop : after 0xF0 (encIs (encErr .phase)) = some (encIs (encErr .phase)) := by decide
/-- K3. -/
theorem test_reservedEnc : after 0x05 .reset = some (encIs (encErr .illegalCommand)) := by decide
/-- K8, its second command: ILLEGAL beats PHASE in DONE (60_exceptions.md R211). -/
theorem test_reservedEnc_in_done : after 0x07 (encIs (enc .done false 0 [0])) =
    some (encIs { encErr .illegalCommand with out := [fieldOf 4 0] }) := by decide
/-- K5. -/
theorem test_reservedDec8 : after 0x08 .reset = some (decIs (decErr .illegalCommand)) := by decide
/-- K7. -/
theorem test_reservedDecD : after 0x0D .reset = some (decIs (decErr .illegalCommand)) := by decide
/-- K4 and P6: in ERROR the reserved command is ignored. -/
theorem test_reservedDecEF : after 0x0E .reset = some (decIs (decErr .illegalCommand)) ∧
    after 0x0E (decIs (decErr .phase)) = some (decIs (decErr .phase)) := by decide

/-! ## Placing a word (E2, at the reset state and with a field pending) -/

theorem test_withFetchWord :
    next? (step (State.reset.withFetchWord 8 0x12)) = some (encIs (enc .active true 1 [0])) ∧
    next? (step (pend2.withFetchWord 8 0x12)) = some { pend2 with enc := enc .active true 2 [2] } := by decide

/-! ## STATUS -/

/-- T1, T5, T10. -/
theorem test_status_command :
    statusWord .reset = 0x0000#16 ∧ statusWord (encIs (encErr .phase)) = 0x0022#16 ∧
    statusWord (decIs (decErr .fieldMisaligned)) = 0x0408#16 := by decide
/-- T11. -/
theorem test_status_both_faulted :
    statusWord { encIs (encErr .phase) with dec := decErr .phase } = 0x022A#16 := by decide
/-- B1 beats 4 and 7, B2 beat 2. -/
theorem test_status_busy :
    statusWord pend2 = 0x1000#16 ∧
    statusWord { pend2 with enc := { pend2.enc with phase := .done } } = 0x1001#16 ∧
    statusWord rem3 = 0x2000#16 := by decide

/-! ## The beat level, one beat at a time -/

/-- B1, beat 3: the word 0x12 is accepted with count 2, and the field 2 becomes pending. -/
theorem test_beat_accept :
    after 0x12 { beat0 with enc := enc .active false 2 [] } = some pend2 := by decide
/-- B1, beat 4: the field is transferred and the offered word is not accepted. -/
theorem test_beat_transfer : after 0x12 pend2 =
    some { pend2 with enc := { pend2.enc with out := [fieldOf 4 2], pend := [] }, offered := some 0x12 } := by decide
/-- B2, beat 2: one bit is transferred. -/
theorem test_beat_bit : next? (step { rem3 with inputs := [idle] }) =
    some { rem3 with dec := { rem3.dec with remaining := fieldOf 4 2, out := [false] } } := by decide
/-- B5, beat 2: with `fo_ready = 0` the field stays. -/
theorem test_beat_backpressure : (next? (step { pend2 with inputs := [stall] })) = some pend2 := by decide
/-- B6. -/
theorem test_beat_reset : next? (step { rem3 with inputs := [offerReset] }) = some beat0 := by decide
/-- 93_implementation_defined.md I22: a changed word is refused. -/
theorem test_beat_duty :
    refusedWith .hostDutyBroken (step { pend2 with offered := some 0x12, inputs := [offerWord 0x02] }) = true := by
  decide

/-! ## Pass functions, fields and bits -/

/-- S4, V15, V12. -/
theorem test_encode : encodePass 15 (List.replicate 17 true) = [0, 15, 0, 2] ∧
    encodePass 15 (List.replicate 15 false ++ List.replicate 15 true) = [15, 15] ∧
    encodePass 15 (List.replicate 31 false) = [15, 0, 15, 0, 1] := by decide
/-- W1-9, W2-2. -/
theorem test_encode_narrow : encodePass 1 [false, false, true, true] = [1, 0, 1, 1, 0, 1] ∧
    encodePass 3 [true, true, true, false, false, false, true] = [0, 3, 3, 1] := by decide
/-- V13 by the closed form, and its field count. -/
theorem test_closed_form : encodeClosedForm 15 (List.replicate 31 true) = [0, 15, 0, 15, 0, 1] ∧
    fieldCountFormula 15 (List.replicate 31 true) = 6 := by decide
/-- X4, X10. -/
theorem test_decode_pass : decodePass [3, 0, 2] = List.replicate 5 false ∧
    decodePass [2, 0, 0, 3] = [false, false, true, true, true] := by decide
/-- Z1, Z2, Z8, Z9. -/
theorem test_ser : ser .msbFirst 4 2 = [false, false, true, false] ∧ ser .lsbFirst 4 2 = [false, true, false, false] ∧
    deser .msbFirst [false, false, true, true] = 3 ∧ deser .lsbFirst [false, false, true, true] = 12 := by decide
/-- Z5, and Z12's complete field and left-over bits. -/
theorem test_bit_image :
    bitImage .msbFirst 4 [2, 2] = [false, false, true, false, false, false, true, false] ∧
    completeFields .msbFirst 4 [false, false, true, true, true, false, true] = [3] ∧
    leftoverBits 4 [false, false, true, true, true, false, true] = [true, false, true] := by decide

/-! ## The assembler -/

/-- Words of the vectors' conventions (95_test_vectors.md, 30_encoding.md R82). -/
theorem test_assemble : assembleText .msbFirst 4 "enc.bit 1 ; a one".toList = .ok [0x12] ∧
    assembleText .msbFirst 4 "dec.field 0xF".toList = .ok [0xFC] ∧
    assembleText .msbFirst 4 ".word 0x05".toList = .ok [0x05] := by decide
/-- P1 by the pseudo-instruction, and P3's first field. -/
theorem test_assemble_pseudo :
    assembleText .msbFirst 4 "enc.pass \"0011\"".toList = .ok [0x01, 0x02, 0x02, 0x12, 0x12, 0x03] ∧
    assembleText .msbFirst 4 "dec.serial [2]".toList = .ok [0x0A, 0x0A, 0x1A, 0x0A] := by decide
theorem test_assemble_rejects : assembleText .msbFirst 4 "dec.field 16".toList = .error .fieldAboveMax ∧
    assembleText .msbFirst 4 "enc.bit 2".toList = .error .operandNotABit := by decide

/-! ## Configuration (00_scope.md R9) -/

theorem test_config_refused : Config.elaborate 0 .msbFirst none = .error .widthZero ∧
    Config.elaborate 9 .msbFirst (some 8) = .error .widthOverLimit := by decide

/-! ## Witnesses: a concrete state and operands that meet each statement's hypotheses, clause by clause -/

theorem witness_DecodeOfEncode : (1 ≤ 1 ∧ (Instr.decField 1).wellFormed 1 = true) ∧
    (1 ≤ 4 ∧ (Instr.reservedDecEF 1).wellFormed 4 = true) := by decide

theorem witness_EveryCommandWordDecodesByOpcode : 1 ≤ 1 ∧ 31 < 2 ^ (1 + 4) ∧
    (0xF2 < 2 ^ (4 + 4) ∧ 0x12 < 2 ^ (4 + 4) ∧ clearIgnoredBits 0xF2 = clearIgnoredBits 0x12) := by
  decide

theorem witness_EncodeOfDecodeClearsIgnoredBits :
    decode 4 0xF2 = .ok (.encBit true) ∧ decode 4 0xFC = .ok (.decField 15) := by decide

theorem witness_IgnoredBitsHaveNoEffect : 0xFF < 2 ^ State.reset.cfg.CW ∧ 0x0F < 2 ^ State.reset.cfg.CW ∧
    clearIgnoredBits 0xFF = clearIgnoredBits 0x0F ∧ 0xFF ≠ 0x0F := by decide

theorem witness_SerialisationRoundTrips : 15 < 2 ^ 4 ∧ [true, true, true, true].length = 4 := by decide

theorem witness_BitImageGivesFieldsBack : 1 ≤ 4 ∧ (∀ f ∈ [0, 15], f < 2 ^ 4) := by decide

/-- A pseudo-instruction that is assembled, one with a field above `MAX`, a command, and numbers on both sides of each
bound. -/
theorem witness_AssembledPseudoDecodesToExpansion : 1 ≤ 4 ∧
    assembleLine .msbFirst 4 (.pseudo (.decFields [0, 15])) = .ok [0x0C, 0xFC] ∧
    (Pseudo.decSerial [0, 15]).fieldsFit 4 = true ∧ (Pseudo.decSerial [16]).fieldsFit 4 = false ∧
    (Instr.decField 15).wellFormed 4 = true ∧ 2 ^ 4 ≤ 16 ∧ 0xFF < 2 ^ (4 + 4) ∧ 2 ^ (4 + 4) ≤ 0x100 ∧ 2 ≤ 2 := by decide

theorem witness_ResetValues : (encIs (encErr .phase)).enc.pend = [] ∧ (decIs (decErr .phase)).dec.xval = false ∧
    (decIs (decErr .phase)).dec.remaining.val = 0 := by decide

theorem witness_ResetInputGivesResetState :
    ({ pend2 with inputs := [offerReset] } : State).inputs = [offerReset] ∧ offerReset.rst = true := by decide

theorem witness_ConfigurationNeverChanges : ∃ t, step { pend2 with inputs := [idle] } = .next t ∧ t ≠ pend2 :=
  ⟨_, rfl, by decide⟩

/-- One state for each clause: ERROR, DONE, a flip with the counter at `MAX`, the escape, and the increment to `MAX`. -/
theorem witness_EncBitFollowsItsRule :
    (encIs (encErr .phase)).enc.phase = .error ∧ (encIs (enc .done false 0 [0])).enc.phase = .done ∧
    (let s := encIs (enc .active false 15 []);
      s.enc.phase = .active ∧ true ≠ s.enc.cur ∧ s.enc.count.val = s.cfg.MAX ∧ false = s.enc.cur) ∧
    (let s := encIs (enc .active false 14 []);
      s.enc.phase = .active ∧ false = s.enc.cur ∧ s.enc.count.val + 1 < 2 ^ s.cfg.W) := by decide

theorem witness_EncEndFollowsItsRule : (encIs (encErr .phase)).enc.phase = .error ∧
    (encIs (enc .done false 0 [0])).enc.phase = .done ∧ State.reset.enc.phase = .active := by decide

/-- Both bit orders; ERROR, DONE, a bit that is not the last, and the last bit. -/
theorem witness_DecBitFollowsItsRule :
    (decIs (decErr .phase)).dec.phase = .error ∧ (decIs (dec .done true 0 0 [])).dec.phase = .done ∧
    (let s := decIs (dec .active false 3 2 []);
      s.cfg.order = .msbFirst ∧ s.dec.nbits < s.cfg.W ∧ s.dec.acc.val < 2 ^ s.dec.nbits ∧ s.dec.phase = .active ∧
      s.dec.nbits + 1 ≠ s.cfg.W) ∧
    (let s := decLsb (dec .active false 7 3 []);
      s.cfg.order = .lsbFirst ∧ s.dec.nbits < s.cfg.W ∧ s.dec.acc.val < 2 ^ s.dec.nbits ∧ s.dec.phase = .active ∧
      s.dec.nbits + 1 = s.cfg.W) := by decide

theorem witness_DecFieldFollowsItsRule : (decIs (decErr .phase)).dec.phase = .error ∧
    (decIs (dec .done true 0 0 [])).dec.phase = .done ∧
    ((decIs (dec .active false 1 1 [])).dec.phase = .active ∧ (decIs (dec .active false 1 1 [])).dec.nbits ≠ 0) ∧
    (State.reset.dec.phase = .active ∧ State.reset.dec.nbits = 0) := by decide

theorem witness_DecEndFollowsItsRule : (decIs (decErr .phase)).dec.phase = .error ∧
    (decIs (dec .done true 0 0 [])).dec.phase = .done ∧
    ((decIs (dec .active false 4 3 [])).dec.phase = .active ∧ (decIs (dec .active false 4 3 [])).dec.nbits ≠ 0) ∧
    (State.reset.dec.phase = .active ∧ State.reset.dec.nbits = 0) := by decide

theorem witness_ReservedOpcodesRaiseIllegalCommand :
    (encIs (encErr .phase)).enc.phase = .error ∧ (encIs (enc .done false 0 [0])).enc.phase ≠ .error ∧
    (decIs (decErr .phase)).dec.phase = .error ∧ State.reset.dec.phase ≠ .error := by decide

theorem witness_FaultEntryKeepsFirstCode :
    State.reset.enc.err = .noFault ∧ (encIs (encErr .phase)).enc.err ≠ .noFault ∧
    State.reset.dec.err = .noFault ∧ (decIs (decErr .truncatedInput)).dec.err ≠ .noFault := by decide

/-- Command level, beat level with the duty kept, and with the duty broken. -/
theorem witness_StepStopsOnlyOnBrokenHostDuty :
    (let s := { State.reset with inputs := [offerWord 0xFF] }; s.InputsFit ∧ s.level = .command) ∧
    (let s := { pend2 with inputs := [offerWord 0x12], offered := some 0x12 }; s.InputsFit ∧ s.level = .beat) ∧
    (let s := { pend2 with inputs := [idle], offered := some 0x12 }; s.InputsFit ∧ s.level = .beat ∧
      refusedWith .hostDutyBroken (step s) = true) := by decide

theorem witness_FaultsArePrecise : ∃ t, exec (.decField 3) (decIs (dec .active false 1 1 [])) = .next t ∧
    phaseOf .dec (decIs (dec .active false 1 1 [])) ≠ .error ∧ phaseOf .dec t = .error :=
  ⟨_, rfl, by decide, by decide⟩

theorem witness_ErrorPhaseIgnoresCommands : (Instr.encBit true).unit = some .enc ∧ Instr.encBit true ≠ .encStart ∧
    Instr.encBit true ≠ .decStart ∧ phaseOf .enc (encIs (encErr .phase)) = .error := by decide

/-- By START, and by reset. -/
theorem witness_OnlyStartOrResetLeavesError :
    (∃ t, step { encIs (encErr .phase) with inputs := [offerWord 0x01] } = .next t ∧
      phaseOf .enc (encIs (encErr .phase)) = .error ∧ phaseOf .enc t ≠ .error) ∧
    (∃ t, step { decIs (decErr .phase) with inputs := [offerReset] } = .next t ∧
      phaseOf .dec (decIs (decErr .phase)) = .error ∧ phaseOf .dec t ≠ .error) :=
  ⟨⟨_, rfl, by decide, by decide⟩, ⟨_, rfl, by decide, by decide⟩⟩

theorem witness_PhaseFaultAfterEnd :
    ((Instr.encBit true).unit = some .enc ∧ phaseOf .enc (encIs (enc .done false 0 [0])) = .done) ∧
    ((Instr.decField 5).unit = some .dec ∧ phaseOf .dec (decIs (dec .done false 0 0 [])) = .done) := by decide

/-- A command for each unit, and NOP. -/
theorem witness_InterleavedUnitsAreIndependent : (Instr.encBit true).unit = some .enc ∧
    (Instr.decBit true).unit = some .dec ∧ Instr.nop.unit = none := by decide

/-- At both levels, with a step that writes. -/
theorem witness_StepKeepsTheInvariants :
    (State.Inv { State.reset with inputs := [offerWord 0x12] } ∧
      ∃ t, step { State.reset with inputs := [offerWord 0x12] } = .next t) ∧
    (State.Inv { pend2 with enc := { pend2.enc with cur := true }, inputs := [idle] } ∧
      ∃ t, step { pend2 with inputs := [idle] } = .next t) :=
  ⟨⟨by decide, _, rfl⟩, ⟨by decide, _, rfl⟩⟩

theorem witness_ReachableStatesAreBounded : ∃ t,
    Host.Core.run Sys2Proof.core 2
      { State.resetWith Config.reference .beat with inputs := [offerWord 0x12, offerStalled 0x12] } = .next t ∧
    t.enc.pend.map Fin.val = [0] ∧ t.enc.phase = .active :=
  ⟨_, rfl, by decide, by decide⟩

theorem witness_EncCountPositiveAfterBit :
    ∃ t, (encIs (enc .active false 15 [])).enc.phase = .active ∧
      exec (.encBit false) (encIs (enc .active false 15 [])) = .next t ∧ t.enc.phase = .active :=
  ⟨_, rfl, rfl, by decide⟩

/-- A pass begun by START in ERROR, and one begun by reset. -/
theorem witness_DecoderParity : Instr.decStart ∉ [Instr.decField 0] ∧
    (∃ s t, exec .decStart (decIs (decErr .phase)) = .next s ∧ execAll [.decField 0] s = .next t ∧
      t.dec.phase = .active) ∧
    (∃ t, execAll [.decField 0] (State.resetWith cfg1 .command) = .next t ∧ t.dec.phase = .active) :=
  ⟨by decide, ⟨_, _, rfl, rfl, by decide⟩, ⟨_, rfl, by decide⟩⟩

theorem witness_EncoderPassComputesEncode : (encIs (encErr .phase)).level = .command := by decide

theorem witness_EncodeClosedForm : 1 ≤ 1 ∧ [true, true] = true :: [true] ∧ 2 ∈ runLengths [true, true] := by decide

theorem witness_EncodedFieldCount : 1 ≤ Config.MAX cfg1 := by decide

/-- An escape inside a canonical stream: the zero after position 0 stands after `MAX` and before 1. -/
theorem witness_EncodeImageIsCanonical : 1 ≤ 15 ∧ (∀ f ∈ [15, 0, 1], f ≤ 15) ∧ Canonical 15 [15, 0, 1] ∧
    [15, 0, 1][0 + 1]? = some 0 :=
  ⟨by decide, by decide, .inr ⟨⟨1, rfl, by decide⟩, fun k h => by
    match k with
    | 0 => rfl
    | 1 => simp at h
    | k + 2 => simp at h⟩, rfl⟩

theorem witness_FlushedFieldIsZeroOnlyWhenEmpty : 1 ≤ 1 ∧ encodePass 1 [] = [0] ∧ [true].getLast? = some (!false) := by
  decide

theorem witness_DecoderPassComputesDecode : State.reset.level = .command := by decide

/-- Whole fields, and Z11's two bits. -/
theorem witness_BitLevelPassOutcome : State.reset.level = .command ∧
    [false, false, true, false].length % State.reset.cfg.W = 0 ∧ [true, false].length % State.reset.cfg.W ≠ 0 := by
  decide

theorem witness_FieldReaderAccumulates :
    State.reset.dec.phase = .active ∧ State.reset.dec.nbits = 0 ∧ State.reset.dec.acc.val = 0 ∧
    [true, true, true].length < State.reset.cfg.W ∧ [true, true, true, true].length = State.reset.cfg.W := by decide

theorem witness_FieldByBitsEqualsWholeField : beat0.dec.phase = .active ∧ beat0.dec.nbits = 0 ∧
    beat0.dec.acc.val = 0 := by decide

/-- Z13 (a whole zero field) and two bits of padding. -/
theorem witness_ZeroPaddingOutcome : State.reset.level = .command ∧ 4 % State.reset.cfg.W = 0 ∧
    2 % State.reset.cfg.W ≠ 0 := by decide

theorem witness_RoundTripLaw : (encIs (encErr .phase)).level = .command := by decide

theorem witness_CommandStepRunsDecodedCommand :
    let s := { State.reset with inputs := [offerWord 0xFC] }
    s.level = .command ∧ s.inputs = offerWord 0xFC :: [] ∧ (offerWord 0xFC).rst = false ∧
    (offerWord 0xFC).cmdValid = true ∧ decode s.cfg.W (offerWord 0xFC).cmdWord = .ok (.decField 15) := by decide

/-- A new offer with nothing pending, and a repeated offer with a field pending. -/
theorem witness_BeatAcceptsOnlyWhenNothingPending :
    (let s := { beat0 with inputs := [offerWord 0x12] };
      s.level = .beat ∧ s.inputs = offerWord 0x12 :: [] ∧ decode s.cfg.W 0x12 = .ok (.encBit true) ∧
      s.offered = none ∧ cmdReady s = true) ∧
    (let s := { pend2 with inputs := [offerWord 0x12], offered := some 0x12 };
      s.level = .beat ∧ s.inputs = offerWord 0x12 :: [] ∧ s.offered = some (offerWord 0x12).cmdWord ∧
      cmdReady s = false) := by decide

theorem witness_FetchWordRunsNext :
    decode State.reset.cfg.W (0x2C % 2 ^ 8) = .ok (.decField 2) ∧ decode pend2.cfg.W (0x03 % 2 ^ 8) = .ok .encEnd := by
  decide

theorem witness_FieldTransfer :
    let s := { pend2 with inputs := [idle] }
    s.level = .beat ∧ s.inputs = idle :: [] ∧ idle.rst = false ∧ dutyBroken idle s = false ∧ s.InputsFit ∧
    s.enc.pend.map Fin.val = [2] ∧ idle.foReady = true ∧ stall.foReady = false := by decide

theorem witness_BitTransfer :
    let s := { rem3 with inputs := [idle] }
    s.level = .beat ∧ s.inputs = idle :: [] ∧ idle.rst = false ∧ dutyBroken idle s = false ∧ s.InputsFit ∧
    0 < s.dec.remaining.val ∧ idle.boReady = true ∧ stall.boReady = false := by decide

theorem witness_OfferedOutputIsHeld :
    (∃ t, step { pend2 with inputs := [stall] } = .next t ∧ foValid pend2 = true ∧ stall.foReady = false) ∧
    (∃ t, step { rem3 with inputs := [stall] } = .next t ∧ boValid rem3 = true ∧ stall.boReady = false) :=
  ⟨⟨_, rfl, by decide, rfl⟩, ⟨_, rfl, by decide, rfl⟩⟩

theorem witness_IdleBeatChangesNothing : State.reset.inputs = [] ∧
    (let s := { beat0 with inputs := [idle] };
      s.inputs = idle :: [] ∧ idle.rst = false ∧ idle.cmdValid = false ∧ s.offered = none ∧ s.enc.pend = [] ∧
      s.dec.remaining.val = 0) := by decide

/-- Two beats: a command accepted, then a reset; the command-level machine takes both. -/
theorem witness_LevelsAgree : ∃ A B', Agrees A { beat0 with inputs := [offerWord 0x12, idle, offerReset] } ∧
    A.inputs = effectiveInputs 3 { beat0 with inputs := [offerWord 0x12, idle, offerReset] } ∧
    A.inputs = [offerWord 0x12, offerReset] ∧
    Host.Core.run Sys2Proof.core 3 { beat0 with inputs := [offerWord 0x12, idle, offerReset] } = .next B' :=
  ⟨{ State.reset with inputs := [offerWord 0x12, offerReset] }, _, by unfold Agrees; decide, by decide, rfl, rfl⟩

/-- The word accepted is a new offer, and one that has waited. -/
theorem witness_AcceptanceIsBounded :
    let s := { beat0 with inputs := offerWord 0xFC :: List.replicate 16 (offerWord 0x0B) }
    (s.level = .beat ∧ s.Inv ∧ cmdReady s = true ∧ s.offered = none ∧ 0xFC < 2 ^ s.cfg.CW ∧ 0x0B < 2 ^ s.cfg.CW ∧
      s.inputs = offerWord 0xFC :: List.replicate (max 3 (1 + s.cfg.MAX)) (offerWord 0x0B)) ∧
    (let r := { s with offered := some 0xFC }; r.Inv ∧ cmdReady r = true ∧ r.offered = some 0xFC) := by decide

/-- A flip, an escape, a flush, an expansion, a completed field and a fault, each with nothing pending before. -/
theorem witness_BeatCosts :
    (let s := { beat0 with enc := enc .active false 15 [] };
      s.level = .beat ∧ cmdReady s = true ∧ s.enc.phase = .active ∧
      (∃ t, exec (.encBit false) s = .next t)) ∧
    (let s := { beat0 with dec := dec .active false 7 3 [] };
      s.level = .beat ∧ cmdReady s = true ∧ s.dec.phase = .active ∧ (∃ t, exec (.decBit true) s = .next t) ∧
      (∃ t, exec (.decField 3) s = .next t ∧ phaseOf .dec s ≠ .error ∧ phaseOf .dec t = .error)) ∧
    ((Instr.encBit true).unit = some .enc ∧ phaseOf .enc { beat0 with enc := encErr .phase } = .error) ∧
    (beat0.dec.nbits = 0 ∧ (∃ f : CountField beat0.cfg.W, f.val = 15 ∧ ∃ t, exec (.decField f.val) beat0 = .next t) ∧
      (∃ t, exec .encEnd beat0 = .next t)) ∧
    idle.foReady = true ∧ idle.boReady = true :=
  ⟨⟨rfl, rfl, rfl, _, rfl⟩, ⟨rfl, rfl, rfl, ⟨_, rfl⟩, _, rfl, by decide, by decide⟩,
    ⟨rfl, rfl⟩, ⟨rfl, ⟨maxField beat0.cfg, rfl, _, rfl⟩, _, rfl⟩, rfl, rfl⟩

end Sys2Proof.Tests
end

/-! PROOFS of the scope family (00_scope.md R9, R10; 60_exceptions.md R208). -/

namespace Sys2Proof

/-- R9's validity as a proposition: at least 1, and within the limit where there is one. -/
theorem configAccepts_iff (W : Nat) (wLimit : Option Nat) :
    configAccepts W wLimit = true ↔ 1 ≤ W ∧ ∀ limit, wLimit = some limit → W ≤ limit := by
  cases wLimit <;> simp [configAccepts]

/-- The width of every configuration is valid: `Config.valid` carries the check (60_exceptions.md R208). -/
theorem Config.width_valid (c : Config) : 1 ≤ c.W ∧ ∀ limit, c.wLimit = some limit → c.W ≤ limit :=
  (configAccepts_iff c.W c.wLimit).1 c.valid

/-- Elaboration answers the configuration it was asked for, and no other. -/
theorem Config.elaborate_eq_ok_iff (W : Nat) (order : BitOrder) (wLimit : Option Nat) (c : Config) :
    Config.elaborate W order wLimit = .ok c ↔ c.W = W ∧ c.order = order ∧ c.wLimit = wLimit := by
  constructor
  · intro h
    unfold Config.elaborate at h
    split at h
    · cases h; exact ⟨rfl, rfl, rfl⟩
    · split at h <;> cases h
  · rintro ⟨rfl, rfl, rfl⟩
    exact dif_pos c.valid

end Sys2Proof

namespace Sys2Proof.Machine

/-- Settles O9: a valid width is the proof field a configuration needs, and every configuration carries one. -/
theorem onlyValidConfigurationsExist : Obligations.OnlyValidConfigurationsExist := by
  unfold Obligations.OnlyValidConfigurationsExist
  refine ⟨fun W order wLimit => ⟨?_, fun hvalid => ?_⟩, fun s => s.cfg.width_valid⟩
  · rintro ⟨c, -, rfl, -, rfl⟩
    exact c.width_valid
  · exact ⟨⟨W, order, wLimit, (configAccepts_iff W wLimit).2 hvalid⟩,
      (Config.elaborate_eq_ok_iff W order wLimit _).2 ⟨rfl, rfl, rfl⟩, rfl, rfl, rfl⟩

/-- Settles O12, by what a step can do (`step_cases`): a reset and a beat's transfers write units and the offer only,
and a command leaves the configuration and the level by `exec_frame`. -/
theorem configurationNeverChanges : Obligations.ConfigurationNeverChanges := by
  unfold Obligations.ConfigurationNeverChanges
  intro s t hstep
  obtain ⟨-, rfl⟩ | ⟨p, rest, -, hreset | hcommand | hidle | haccepted | hwaits | htransfers⟩ := step_cases hstep
  · exact ⟨rfl, rfl⟩
  · obtain ⟨-, rfl⟩ := hreset
    exact ⟨rfl, rfl⟩
  · obtain ⟨-, -, -, i, -, hexec⟩ := hcommand
    obtain ⟨hcfg, hlevel, -⟩ := exec_frame hexec
    exact ⟨hcfg, hlevel⟩
  · obtain ⟨-, -, -, rfl⟩ := hidle
    exact ⟨rfl, rfl⟩
  · obtain ⟨-, -, -, -, -, i, -, hexec⟩ := haccepted
    obtain ⟨hcfg, hlevel, -⟩ := exec_frame hexec
    exact ⟨hcfg, hlevel⟩
  · obtain ⟨-, -, -, -, -, -, rfl⟩ := hwaits
    exact ⟨rfl, rfl⟩
  · obtain ⟨-, -, -, -, rfl⟩ := htransfers
    exact ⟨rfl, rfl⟩

end Sys2Proof.Machine

/-! PROOFS of the state family (10_state.md R24 to R38; 60_exceptions.md R200, R202; 70_reset_and_hazards.md R246). -/

namespace Sys2Proof.Machine

variable {W : Nat}

/-! ## Facts about the model's definitions -/

@[simp] theorem parityBit_zero : parityBit 0 = false := rfl

/-- One field more is the other value (10_state.md R30). -/
@[simp] theorem parityBit_succ (n : Nat) : parityBit (n + 1) = !parityBit n := by
  obtain h | h := Nat.mod_two_eq_zero_or_one n <;> simp [parityBit, Nat.add_mod, h]

theorem afterFields_pend_length_le (l : Level) (fs : List (CountField W)) (e : EncUnit W) :
    (e.afterFields l fs).pend.length ≤ e.pend.length + fs.length := by
  cases l <;> simp [EncUnit.afterFields]

/-- The fields of the pass, transferred or pending, grow by those emitted, at either level. -/
theorem afterFields_fields_length (l : Level) (fs : List (CountField W)) (e : EncUnit W) :
    ((e.afterFields l fs).out ++ (e.afterFields l fs).pend).length = (e.out ++ e.pend).length + fs.length := by
  cases l <;> simp [EncUnit.afterFields] <;> omega

@[simp] theorem afterFields_command_pend (fs : List (CountField W)) (e : EncUnit W) :
    (e.afterFields .command fs).pend = e.pend := rfl
@[simp] theorem afterField_command_remaining (v : CountField W) (d : DecUnit W) :
    (d.afterField .command v).remaining = d.remaining := rfl

/-- A fault that is recorded where none was, or the code that was there (60_exceptions.md R203). -/
theorem encFaulted_err (code : ErrCode) (e : EncUnit W) :
    (e.err = .noFault ∧ (e.faulted code).err = code) ∨ (e.err ≠ .noFault ∧ (e.faulted code).err = e.err) := by
  by_cases h : e.err = .noFault <;> simp [EncUnit.faulted, h]

/-- As `encFaulted_err`, for the decoder. -/
theorem decFaulted_err (code : ErrCode) (d : DecUnit W) :
    (d.err = .noFault ∧ (d.faulted code).err = code) ∨ (d.err ≠ .noFault ∧ (d.faulted code).err = d.err) := by
  by_cases h : d.err = .noFault <;> simp [DecUnit.faulted, h]

/-- A command may be executed exactly when no unit has output pending (70_reset_and_hazards.md R242). -/
theorem cmdReady_iff (s : State) : cmdReady s = true ↔ s.enc.pend = [] ∧ s.dec.remaining.val = 0 := by
  simp [cmdReady]

/-! ## START and reset -/

/-- Settles O14: the writes of ENC.START are the equation `startEnc_eq`. -/
theorem encStartBeginsPass : Obligations.EncStartBeginsPass := by
  unfold Obligations.EncStartBeginsPass
  intro s
  rw [exec_eq]
  rfl

/-- Settles O17: the writes of DEC.START are the equation `startDec_eq`. -/
theorem decStartBeginsPass : Obligations.DecStartBeginsPass := by
  unfold Obligations.DecStartBeginsPass
  intro s
  rw [exec_eq]
  rfl

/-- START leaves an encoder with nothing pending as reset does (10_state.md R38). -/
theorem startEnc_eq_reset {e : EncUnit W} (hpend : e.pend = []) : startEnc e = .reset := by
  rw [startEnc_eq, hpend]
  rfl

/-- START leaves a decoder whose beat-level registers are at reset as reset does (10_state.md R38). -/
theorem startDec_eq_reset {d : DecUnit W} (hxval : d.xval = false) (hremaining : d.remaining.val = 0) :
    startDec d = .reset := by
  have hzero : d.remaining = zeroField W := Fin.ext hremaining
  rw [startDec_eq, hxval, hzero]
  rfl

@[simp] theorem encReset_phase : (EncUnit.reset : EncUnit W).phase = .active := rfl
@[simp] theorem encReset_err : (EncUnit.reset : EncUnit W).err = .noFault := rfl
@[simp] theorem decReset_phase : (DecUnit.reset : DecUnit W).phase = .active := rfl
@[simp] theorem decReset_err : (DecUnit.reset : DecUnit W).err = .noFault := rfl
@[simp] theorem resetWith_enc (cfg : Config) (level : Level) : (State.resetWith cfg level).enc = .reset := rfl
@[simp] theorem resetWith_dec (cfg : Config) (level : Level) : (State.resetWith cfg level).dec = .reset := rfl

/-- STATUS is 0 after reset (10_state.md R38): the phases and codes are 0, and neither unit is busy. -/
theorem statusWord_resetWith (cfg : Config) (level : Level) :
    statusWord (State.resetWith cfg level) = 0x0000#16 := by
  have henc : encBusy (State.resetWith cfg level) = false := by cases level <;> rfl
  have hdec : decBusy (State.resetWith cfg level) = false := by cases level <;> rfl
  simp [statusWord, henc, hdec, phaseCode, errCodeValue]

/-- Settles O10: the reset registers are read off, and START's writes are reset's. -/
theorem resetValues : Obligations.ResetValues := by
  unfold Obligations.ResetValues
  refine ⟨fun cfg level => ?_, fun s hpend => ?_, fun s hxval hremaining => ?_⟩
  · exact ⟨rfl, rfl, rfl, rfl, rfl, rfl, rfl, rfl, rfl, rfl, rfl, rfl, rfl, rfl, statusWord_resetWith cfg level⟩
  · rw [exec_eq]
    simp only [encAfter, decAfter, startEnc_eq_reset hpend, State.resetWith]
  · rw [exec_eq]
    simp only [encAfter, decAfter, startDec_eq_reset hxval hremaining, State.resetWith]

/-! ## STATUS -/

/-- Each slice of STATUS is the part of the concatenation that stands there (10_state.md R34). -/
theorem statusWord_slices (s : State) :
    (statusWord s).extractLsb' 0 2 = phaseCode s.enc.phase ∧
    (statusWord s).extractLsb' 2 2 = phaseCode s.dec.phase ∧
    (statusWord s).extractLsb' 4 4 = errCodeValue s.enc.err ∧
    (statusWord s).extractLsb' 8 4 = errCodeValue s.dec.err ∧
    (statusWord s).extractLsb' 14 2 = 0#2 := by
  unfold statusWord
  refine ⟨?_, ?_, ?_, ?_, ?_⟩ <;>
    simp (disch := decide) only [BitVec.extractLsb'_cast, BitVec.extractLsb'_append_eq_of_add_le,
      BitVec.extractLsb'_append_eq_of_le, Nat.sub_self, BitVec.extractLsb'_eq_self]

/-- ENC_BUSY is bit 12 (10_state.md R34). -/
theorem statusWord_bit12 (s : State) : (statusWord s).getLsbD 12 = encBusy s := by
  unfold statusWord
  simp only [BitVec.getLsbD_cast, BitVec.getLsbD_append]
  simp

/-- DEC_BUSY is bit 13 (10_state.md R34). -/
theorem statusWord_bit13 (s : State) : (statusWord s).getLsbD 13 = decBusy s := by
  unfold statusWord
  simp only [BitVec.getLsbD_cast, BitVec.getLsbD_append]
  simp

theorem encBusy_iff (s : State) : encBusy s = true ↔ s.level = .beat ∧ s.enc.pend ≠ [] := by
  cases h : s.level <;> simp [encBusy, h]

theorem decBusy_iff (s : State) : decBusy s = true ↔ s.level = .beat ∧ 0 < s.dec.remaining.val := by
  cases h : s.level <;> simp [decBusy, h]

/-- Settles O55: STATUS is a concatenation, cut at the bounds of its fields. -/
theorem statusFields : Obligations.StatusFields := by
  unfold Obligations.StatusFields
  refine ⟨statusWord_resetWith, ⟨rfl, rfl, rfl⟩, ⟨rfl, rfl, rfl, rfl, rfl, rfl⟩, fun s => ?_⟩
  obtain ⟨hencPhase, hdecPhase, hencErr, hdecErr, hzero⟩ := statusWord_slices s
  refine ⟨hencPhase, hdecPhase, hencErr, hdecErr, ?_, ?_, hzero⟩
  · rw [statusWord_bit12, encBusy_iff]
  · rw [statusWord_bit13, decBusy_iff]

/-! ## The encoder's invariant -/

theorem encReset_inv : (EncUnit.reset : EncUnit W).Inv := by
  simp [EncUnit.Inv, EncUnit.reset]

/-- Fault entry keeps the invariant for the two codes an encoder can raise (60_exceptions.md R200, R202). -/
theorem encFaulted_inv {code : ErrCode} {e : EncUnit W} (hcode : code = .illegalCommand ∨ code = .phase)
    (hinv : e.Inv) : (e.faulted code).Inv := by
  obtain ⟨hpend, -, hcodes, -⟩ := hinv
  have herr : (e.faulted code).err = .illegalCommand ∨ (e.faulted code).err = .phase := by
    obtain ⟨-, h⟩ | ⟨hheld, h⟩ := encFaulted_err code e <;> rw [h]
    · exact hcode
    · exact hcodes.resolve_left hheld
  refine ⟨hpend, ⟨fun _ => ?_, fun _ => encFaulted_phase code e⟩, .inr herr, fun h => ?_⟩
  · obtain h | h := herr <;> simp [h]
  · simp at h

/-- Emission in ACTIVE keeps the invariant, when nothing pends and at most two fields are emitted: the new phase is
ACTIVE with the parity that fits, or DONE. -/
theorem encEmission_inv {e : EncUnit W} {l : Level} {fs : List (CountField W)} {count : CountField W} {cur : Bit}
    {phase : Phase} (hinv : e.Inv) (hnone : e.pend = []) (hactive : e.phase = .active) (hfs : fs.length ≤ 2)
    (hphase : phase ≠ .error) (hcur : phase = .active → cur = parityBit ((e.out ++ e.pend).length + fs.length)) :
    EncUnit.Inv { e.afterFields l fs with count := count, cur := cur, phase := phase } := by
  obtain ⟨-, herror, hcodes, -⟩ := hinv
  have herr : e.err = .noFault := by simpa [hactive] using herror
  have hlen := afterFields_pend_length_le l fs e
  rw [hnone] at hlen
  refine ⟨?_, by simp [hphase, herr], by simp [herr], fun h => ?_⟩
  · simpa using hlen.trans (by simpa using hfs)
  · rw [hcur h, ← afterFields_fields_length l fs e]

/-- ENC.BIT in ACTIVE emits one field and flips, emits two and does not flip, or emits none (10_state.md R31). -/
theorem encBitRule_inv {cfg : Config} (l : Level) (b : Bit) {e : EncUnit cfg.W} (hinv : e.Inv) (hnone : e.pend = [])
    (hactive : e.phase = .active) : (encBitRule cfg l b e).Inv := by
  have ⟨_, _, _, hparity⟩ := hinv
  have hcur := hparity hactive
  obtain ⟨-, h⟩ | ⟨-, -, h⟩ | ⟨-, -, hfits, h⟩ := encBitRule_cases cfg l b e <;> rw [h]
  · exact encEmission_inv hinv hnone hactive (by simp) (by simp [hactive]) (by simp [hcur])
  · exact encEmission_inv hinv hnone hactive (by simp) (by simp [hactive]) (by simp [hcur])
  · exact hinv

/-- What holds of an encoder, of its PHASE fault entry, and of what a command's rule leaves in ACTIVE holds after the
dispatch checks. -/
theorem whenEncActive_keeps (P : EncUnit W → Prop) {rule : EncUnit W → EncUnit W} {e : EncUnit W} (he : P e)
    (hfault : P (e.faulted .phase)) (hrule : e.phase = .active → P (rule e)) : P (whenEncActive rule e) := by
  obtain ⟨-, h⟩ | ⟨-, h⟩ | ⟨hactive, h⟩ := whenEncActive_cases rule e <;> rw [h]
  · exact he
  · exact hfault
  · exact hrule hactive

/-- What holds of an encoder and of its ILLEGAL_COMMAND fault entry holds after a reserved opcode. -/
theorem reservedEncRule_keeps (P : EncUnit W → Prop) {e : EncUnit W} (he : P e)
    (hfault : P (e.faulted .illegalCommand)) : P (reservedEncRule e) := by
  obtain ⟨-, h⟩ | ⟨-, h⟩ := reservedEncRule_cases e <;> rw [h]
  · exact he
  · exact hfault

/-- Every command keeps the encoder's invariant when no field is pending. -/
theorem encAfter_inv {cfg : Config} (l : Level) {e : EncUnit cfg.W} (i : Instr) (hinv : e.Inv)
    (hnone : e.pend = []) : (encAfter cfg l e i).Inv := by
  cases i with
  | encStart =>
    have h : encAfter cfg l e .encStart = .reset := startEnc_eq_reset hnone
    exact h ▸ encReset_inv
  | encBit b =>
    exact whenEncActive_keeps EncUnit.Inv hinv (encFaulted_inv (.inr rfl) hinv) (encBitRule_inv l b hinv hnone)
  | encEnd =>
    exact whenEncActive_keeps EncUnit.Inv hinv (encFaulted_inv (.inr rfl) hinv) fun hactive =>
      encEmission_inv hinv hnone hactive (by simp) (by simp) (by simp)
  | reservedEnc low => exact reservedEncRule_keeps EncUnit.Inv hinv (encFaulted_inv (.inl rfl) hinv)
  | _ => exact hinv

theorem encBitRule_command_pend {cfg : Config} (b : Bit) (e : EncUnit cfg.W) :
    (encBitRule cfg .command b e).pend = e.pend := by
  obtain ⟨-, h⟩ | ⟨-, -, h⟩ | ⟨-, -, _, h⟩ := encBitRule_cases cfg .command b e <;> simp [h]

/-- At the command level no command makes a field pending (10_state.md R36). -/
theorem encAfter_command_pend {cfg : Config} (e : EncUnit cfg.W) (i : Instr) :
    (encAfter cfg .command e i).pend = e.pend := by
  cases i with
  | encBit b => exact whenEncActive_keeps (·.pend = e.pend) rfl rfl fun _ => encBitRule_command_pend b e
  | encEnd => exact whenEncActive_keeps (·.pend = e.pend) rfl rfl fun _ => rfl
  | reservedEnc low => exact reservedEncRule_keeps (·.pend = e.pend) rfl rfl
  | _ => rfl

/-- A transfer keeps the encoder's invariant: a field that leaves `enc_pend` joins `enc_out`. -/
theorem transferField_inv {e : EncUnit W} (hinv : e.Inv) : (transferField e).Inv := by
  obtain ⟨hpend, herror, hcodes, hparity⟩ := hinv
  have hlen : (transferField e).pend.length ≤ 2 := by
    rw [transferField_pend, List.length_tail]
    omega
  refine ⟨hlen, ?_⟩
  simpa only [transferField_phase, transferField_err, transferField_cur, transferField_fields]
    using ⟨herror, hcodes, hparity⟩

/-! ## The decoder's invariant -/

theorem startDec_inv (hW : 1 ≤ W) (d : DecUnit W) : (startDec d).Inv := by
  have hpos : 0 < W := hW
  simpa [DecUnit.Inv] using hpos

theorem decReset_inv (hW : 1 ≤ W) : (DecUnit.reset : DecUnit W).Inv := by
  have hpos : 0 < W := hW
  simpa [DecUnit.Inv, DecUnit.reset] using hpos

/-- Fault entry keeps the invariant for every code but COUNT_OVERFLOW and no fault. -/
theorem decFaulted_inv {code : ErrCode} {d : DecUnit W} (hfault : code ≠ .noFault) (hcode : code ≠ .countOverflow)
    (hinv : d.Inv) : (d.faulted code).Inv := by
  obtain ⟨hnbits, hacc, -, -, hheldCode⟩ := hinv
  have herr : (d.faulted code).err ≠ .noFault ∧ (d.faulted code).err ≠ .countOverflow := by
    obtain ⟨-, h⟩ | ⟨hheld, h⟩ := decFaulted_err code d <;> rw [h]
    · exact ⟨hfault, hcode⟩
    · exact ⟨hheld, hheldCode⟩
  obtain ⟨herrFault, herrCode⟩ := herr
  exact ⟨hnbits, hacc, by simp, ⟨fun _ => herrFault, fun _ => decFaulted_phase code d⟩, herrCode⟩

/-- DEC.BIT in ACTIVE moves inside a field, within the bounds of the field reader, or to the next field's beginning
(10_state.md R29). -/
theorem decBitRule_inv (order : BitOrder) (l : Level) (c : Bit) {d : DecUnit W} (hinv : d.Inv)
    (hactive : d.phase = .active) : (decBitRule order l c d).Inv := by
  obtain ⟨hnbits, hacc, -, herror, hcode⟩ := hinv
  have hW : 0 < W := by omega
  obtain ⟨hinside, h⟩ | ⟨-, h⟩ := decBitRule_cases order l c d <;> rw [h]
  · have hnext : d.nbits + 1 < W := by omega
    exact ⟨hnext, accumulate_lt order c hnbits hacc, by simp [hactive], herror, hcode⟩
  · exact ⟨hW, by simp, by simp, by simpa using herror, by simpa using hcode⟩

theorem afterField_inv (l : Level) (v : CountField W) {d : DecUnit W} (hinv : d.Inv) : (d.afterField l v).Inv := by
  simpa only [DecUnit.Inv, afterField_nbits, afterField_acc, afterField_phase, afterField_err] using hinv

theorem decFieldRule_inv (l : Level) (f : CountField W) {d : DecUnit W} (hinv : d.Inv) :
    (decFieldRule l f d).Inv := by
  obtain ⟨-, h⟩ | ⟨-, h⟩ := decFieldRule_cases l f d <;> rw [h]
  · exact decFaulted_inv (by decide) (by decide) hinv
  · exact afterField_inv l f hinv

theorem decEndRule_inv {d : DecUnit W} (hinv : d.Inv) (hactive : d.phase = .active) : (decEndRule d).Inv := by
  obtain ⟨-, h⟩ | ⟨hboundary, h⟩ := decEndRule_cases d <;> rw [h]
  · exact decFaulted_inv (by decide) (by decide) hinv
  · obtain ⟨hnbits, hacc, -, herror, hcode⟩ := hinv
    have hnoFault : d.err = .noFault := by simpa [hactive] using herror
    exact ⟨hnbits, hacc, fun _ => hboundary, by simp [hnoFault], hcode⟩

/-- As `whenEncActive_keeps`, for the decoder. -/
theorem whenDecActive_keeps (P : DecUnit W → Prop) {rule : DecUnit W → DecUnit W} {d : DecUnit W} (hd : P d)
    (hfault : P (d.faulted .phase)) (hrule : d.phase = .active → P (rule d)) : P (whenDecActive rule d) := by
  obtain ⟨-, h⟩ | ⟨-, h⟩ | ⟨hactive, h⟩ := whenDecActive_cases rule d <;> rw [h]
  · exact hd
  · exact hfault
  · exact hrule hactive

/-- As `reservedEncRule_keeps`, for the decoder. -/
theorem reservedDecRule_keeps (P : DecUnit W → Prop) {d : DecUnit W} (hd : P d)
    (hfault : P (d.faulted .illegalCommand)) : P (reservedDecRule d) := by
  obtain ⟨-, h⟩ | ⟨-, h⟩ := reservedDecRule_cases d <;> rw [h]
  · exact hd
  · exact hfault

/-- Every command keeps the decoder's invariant. -/
theorem decAfter_inv {cfg : Config} (l : Level) {d : DecUnit cfg.W} (i : Instr) (hinv : d.Inv) :
    (decAfter cfg l d i).Inv := by
  have hphase : (d.faulted .phase).Inv := decFaulted_inv (by decide) (by decide) hinv
  have hillegal : (reservedDecRule d).Inv :=
    reservedDecRule_keeps DecUnit.Inv hinv (decFaulted_inv (by decide) (by decide) hinv)
  cases i with
  | decStart => exact startDec_inv cfg.width_valid.1 d
  | decBit c => exact whenDecActive_keeps DecUnit.Inv hinv hphase (decBitRule_inv cfg.order l c hinv)
  | decField f => exact whenDecActive_keeps DecUnit.Inv hinv hphase fun _ => decFieldRule_inv l (fieldOf cfg.W f) hinv
  | decEnd => exact whenDecActive_keeps DecUnit.Inv hinv hphase (decEndRule_inv hinv)
  | reservedDec8 => exact hillegal
  | reservedDecD => exact hillegal
  | reservedDecEF low => exact hillegal
  | _ => exact hinv

theorem decBitRule_command_remaining (order : BitOrder) (c : Bit) (d : DecUnit W) :
    (decBitRule order .command c d).remaining = d.remaining := by
  obtain ⟨-, h⟩ | ⟨-, h⟩ := decBitRule_cases order .command c d <;> simp [h]

theorem decFieldRule_command_remaining (f : CountField W) (d : DecUnit W) :
    (decFieldRule .command f d).remaining = d.remaining := by
  obtain ⟨-, h⟩ | ⟨-, h⟩ := decFieldRule_cases .command f d <;> simp [h]

theorem decEndRule_remaining (d : DecUnit W) : (decEndRule d).remaining = d.remaining := by
  obtain ⟨-, h⟩ | ⟨-, h⟩ := decEndRule_cases d <;> simp [h]

/-- At the command level no command makes bits pending (10_state.md R36). -/
theorem decAfter_command_remaining {cfg : Config} (d : DecUnit cfg.W) (i : Instr) :
    (decAfter cfg .command d i).remaining = d.remaining := by
  have hillegal := reservedDecRule_keeps (·.remaining = d.remaining) rfl rfl
  cases i with
  | decBit c =>
    exact whenDecActive_keeps (·.remaining = d.remaining) rfl rfl fun _ => decBitRule_command_remaining cfg.order c d
  | decField f =>
    exact whenDecActive_keeps (·.remaining = d.remaining) rfl rfl fun _ => decFieldRule_command_remaining _ d
  | decEnd => exact whenDecActive_keeps (·.remaining = d.remaining) rfl rfl fun _ => decEndRule_remaining d
  | reservedDec8 => exact hillegal
  | reservedDecD => exact hillegal
  | reservedDecEF low => exact hillegal
  | _ => rfl

theorem transferBit_inv {d : DecUnit W} (hinv : d.Inv) : (transferBit d).Inv := by
  simpa only [DecUnit.Inv, transferBit_nbits, transferBit_acc, transferBit_phase, transferBit_err] using hinv

/-! ## The invariant of a state -/

/-- The invariant does not speak of the host's later inputs, and a withdrawn offer keeps it. -/
theorem inv_with_inputs {s : State} (rest : List HostInput) (hinv : s.Inv) : State.Inv { s with inputs := rest } :=
  hinv

theorem inv_without_offer {s : State} (hinv : s.Inv) : State.Inv { s with offered := none } := by
  obtain ⟨henc, hdec, hone, hcommand⟩ := hinv
  exact ⟨henc, hdec, hone, fun hlevel => ⟨(hcommand hlevel).1, (hcommand hlevel).2.1, rfl⟩⟩

/-- At the command level a command may always be executed: nothing pends (10_state.md R36). -/
theorem cmdReady_of_command {s : State} (hinv : s.Inv) (hlevel : s.level = .command) : cmdReady s = true := by
  obtain ⟨-, -, -, hcommand⟩ := hinv
  obtain ⟨hpend, hremaining, -⟩ := hcommand hlevel
  exact (cmdReady_iff s).2 ⟨hpend, hremaining⟩

/-- A command leaves the encoder or the decoder as it is (42_block_control.md R174). -/
theorem one_unit_kept (s : State) (i : Instr) :
    encAfter s.cfg s.level s.enc i = s.enc ∨ decAfter s.cfg s.level s.dec i = s.dec := by
  by_cases h : i.unit = some .enc
  · exact .inr (decAfter_other (by simp [h]))
  · exact .inl (encAfter_other h)

/-- A command executed with nothing pending keeps the invariant. -/
theorem exec_inv {i : Instr} {s t : State} (hinv : s.Inv) (hready : cmdReady s = true) (hexec : exec i s = .next t) :
    t.Inv := by
  obtain ⟨hpend, hremaining⟩ := (cmdReady_iff s).1 hready
  obtain ⟨henc, hdec, -, hcommand⟩ := hinv
  rw [exec_eq] at hexec
  cases hexec
  refine ⟨encAfter_inv s.level i henc hpend, decAfter_inv s.level i hdec, ?_, fun hlevel => ?_⟩
  · obtain h | h := one_unit_kept s i <;> simp only [h]
    · exact .inl hpend
    · exact .inr hremaining
  · change s.level = .command at hlevel
    obtain ⟨-, -, hoffered⟩ := hcommand hlevel
    simp only [hlevel, encAfter_command_pend, decAfter_command_remaining]
    exact ⟨hpend, hremaining, hoffered⟩

/-- A beat's transfers keep the invariant: pending output only gets less (70_reset_and_hazards.md R244, R245). -/
theorem outputTransfers_inv {s : State} (p : HostInput) (hinv : s.Inv) : (outputTransfers p s).Inv := by
  obtain ⟨henc, hdec, hone, hcommand⟩ := hinv
  have hpend : s.enc.pend = [] → (outputTransfers p s).enc.pend = [] := fun h => by
    cases hp : p.foReady <;> simp [hp, h]
  have hremaining : s.dec.remaining.val = 0 → (outputTransfers p s).dec.remaining.val = 0 := fun h => by
    cases hp : p.boReady <;> simp [hp, h]
  refine ⟨?_, ?_, hone.imp hpend hremaining, fun hlevel => ?_⟩
  · cases hp : p.foReady
    · simpa [hp] using henc
    · simpa [hp] using transferField_inv henc
  · cases hp : p.boReady
    · simpa [hp] using hdec
    · simpa [hp] using transferBit_inv hdec
  · obtain ⟨h, h', hoffered⟩ := hcommand hlevel
    exact ⟨hpend h, hremaining h', hoffered⟩

theorem resetBlock_inv (s : State) : (resetBlock s).Inv :=
  ⟨encReset_inv, decReset_inv s.cfg.width_valid.1, .inl rfl, fun _ => ⟨rfl, rfl, rfl⟩⟩

theorem inv_with_offer {s : State} (w : Nat) (hlevel : s.level = .beat) (hinv : s.Inv) :
    State.Inv { s with offered := some w } := by
  obtain ⟨henc, hdec, hone, -⟩ := hinv
  exact ⟨henc, hdec, hone, fun hcommand => nomatch hlevel.symm.trans hcommand⟩

/-- Settles O30: a reset, a command with nothing pending, and a beat's transfers each keep the invariant, and a step is
one of these or nothing (`step_cases`). -/
theorem stepKeepsTheInvariants : Obligations.StepKeepsTheInvariants := by
  unfold Obligations.StepKeepsTheInvariants
  intro s t hinv hstep
  obtain ⟨-, rfl⟩ | ⟨p, rest, -, hreset | hcommand | hidle | haccepted | hwaits | htransfers⟩ := step_cases hstep
  · exact hinv
  · obtain ⟨-, rfl⟩ := hreset
    exact resetBlock_inv _
  · obtain ⟨-, -, hlevel, i, -, hexec⟩ := hcommand
    exact exec_inv (inv_with_inputs rest hinv) (cmdReady_of_command hinv hlevel) hexec
  · obtain ⟨-, -, -, rfl⟩ := hidle
    exact inv_with_inputs rest hinv
  · obtain ⟨-, -, -, -, hready, i, -, hexec⟩ := haccepted
    exact exec_inv (inv_without_offer (inv_with_inputs rest hinv)) hready hexec
  · obtain ⟨-, -, hlevel, -, -, -, rfl⟩ := hwaits
    exact inv_with_offer p.cmdWord hlevel (outputTransfers_inv p (inv_with_inputs rest hinv))
  · obtain ⟨-, -, -, -, rfl⟩ := htransfers
    exact outputTransfers_inv p (inv_with_inputs rest hinv)

/-- Settles O31: nothing pends and both units are at the beginning of a pass. -/
theorem resetHasTheInvariants : Obligations.ResetHasTheInvariants := by
  unfold Obligations.ResetHasTheInvariants
  intro cfg level
  exact resetBlock_inv (State.resetWith cfg level)

/-! ## Runs from reset -/

/-- A run of one step more that answers is a step and a run from the state it leaves. -/
theorem step_of_run_succ {k : Nat} {s t : State} (hrun : Host.Core.run Sys2Proof.core (k + 1) s = .next t) :
    ∃ u, step s = .next u ∧ Host.Core.run Sys2Proof.core k u = .next t := by
  simp only [Host.Core.run] at hrun
  split at hrun
  next u hstep => exact ⟨u, hstep, hrun⟩
  all_goals cases hrun

/-- What every step keeps, every run keeps. -/
theorem run_keeps (P : State → Prop) (hstep : ∀ s t, P s → step s = .next t → P t) {k : Nat} {s t : State}
    (hs : P s) (hrun : Host.Core.run Sys2Proof.core k s = .next t) : P t := by
  induction k generalizing s with
  | zero => cases hrun; exact hs
  | succ k ih =>
    obtain ⟨u, hu, hrest⟩ := step_of_run_succ hrun
    exact ih (hstep s u hs hu) hrest

/-- A run from reset ends in a state with the invariant, at the configuration and the level it began with. -/
theorem run_from_reset {cfg : Config} {level : Level} {hostInputs : List HostInput} {k : Nat} {t : State}
    (hrun : Host.Core.run Sys2Proof.core k { State.resetWith cfg level with inputs := hostInputs } = .next t) :
    t.Inv ∧ t.cfg = cfg ∧ t.level = level := by
  refine run_keeps (fun s => s.Inv ∧ s.cfg = cfg ∧ s.level = level) ?_ ?_ hrun
  · rintro s u ⟨hinv, hcfg, hlevel⟩ hstep
    obtain ⟨hcfg', hlevel'⟩ := configurationNeverChanges s u hstep
    exact ⟨stepKeepsTheInvariants s u hinv hstep, hcfg'.trans hcfg, hlevel'.trans hlevel⟩
  · exact ⟨inv_with_inputs hostInputs (resetHasTheInvariants cfg level), rfl, rfl⟩

/-- Settles O32: the bounds on fields are those of their type, and the rest is the invariant (O30, O31) along the run. -/
theorem reachableStatesAreBounded : Obligations.ReachableStatesAreBounded := by
  unfold Obligations.ReachableStatesAreBounded
  intro cfg level hostInputs k t hrun
  obtain ⟨⟨henc, hdec, hone, hcommand⟩, rfl, rfl⟩ := run_from_reset hrun
  obtain ⟨hpend, -, hcodes, hparity⟩ := henc
  obtain ⟨hnbits, hacc, -, -, hdecCode⟩ := hdec
  rw [List.length_append] at hparity
  have hencCode : t.enc.err ≠ .countOverflow := by
    obtain h | h | h := hcodes <;> simp [h]
  refine ⟨field_le_MAX _, Nat.le_sub_one_of_lt hnbits, hacc, hparity, fun hlevel hactive => ?_,
    fun f _ => field_le_MAX f, hencCode, hdecCode, hpend, field_le_MAX _, hone⟩
  obtain ⟨hnone, -⟩ := hcommand hlevel
  simpa [hnone] using hparity hactive

/-! ## The encoder's count -/

/-- Settles O33: a flip and an escape restart the counter at 1, and the increment leaves it above 0. -/
theorem encCountPositiveAfterBit : Obligations.EncCountPositiveAfterBit := by
  unfold Obligations.EncCountPositiveAfterBit
  intro b s t hactive hexec _
  rw [exec_eq] at hexec
  cases hexec
  change 1 ≤ (whenEncActive (encBitRule s.cfg s.level b) s.enc).count.val
  rw [whenEncActive_active hactive]
  obtain ⟨-, h⟩ | ⟨-, -, h⟩ | ⟨-, -, _, h⟩ := encBitRule_cases s.cfg s.level b s.enc <;> rw [h]
  · simp
  · simp
  · simp

/-! ## The decoder's parity -/

/-- A decoder that is ACTIVE after the dispatch checks was ACTIVE before, and the command's own rule ran. -/
theorem active_of_whenDecActive {rule : DecUnit W → DecUnit W} {d : DecUnit W}
    (h : (whenDecActive rule d).phase = .active) : d.phase = .active ∧ whenDecActive rule d = rule d := by
  obtain ⟨hphase, heq⟩ | ⟨-, heq⟩ | hrule := whenDecActive_cases rule d
  · simp [heq, hphase] at h
  · simp [heq] at h
  · exact hrule

theorem reservedDecRule_not_active (d : DecUnit W) : (reservedDecRule d).phase ≠ .active := by
  obtain ⟨hphase, h⟩ | ⟨-, h⟩ := reservedDecRule_cases d <;> simp [h]
  simp [hphase]

theorem decEndRule_not_active (d : DecUnit W) : (decEndRule d).phase ≠ .active := by
  obtain ⟨-, h⟩ | ⟨-, h⟩ := decEndRule_cases d <;> simp [h]

/-- Between `d` and `d'` the command `i` completed no field and kept the value, or one field and flipped it
(10_state.md R32). -/
def CountsFields (i : Instr) (d d' : DecUnit W) : Prop :=
  (d'.cur = d.cur ∧ ∀ rest, completedFields W d.nbits (i :: rest) = completedFields W d'.nbits rest) ∨
  (d'.cur = (!d.cur) ∧ ∀ rest, completedFields W d.nbits (i :: rest) = 1 + completedFields W d'.nbits rest)

/-- A command but DEC.START that leaves the decoder ACTIVE found it ACTIVE, and flips it with each field completed. -/
theorem decAfter_countsFields {cfg : Config} {l : Level} {d : DecUnit cfg.W} {i : Instr} (hstart : i ≠ .decStart)
    (hactive : (decAfter cfg l d i).phase = .active) : d.phase = .active ∧ CountsFields i d (decAfter cfg l d i) := by
  cases i with
  | decStart => exact absurd rfl hstart
  | decBit c =>
    obtain ⟨hphase, h⟩ := active_of_whenDecActive hactive
    refine ⟨hphase, ?_⟩
    simp only [decAfter, h]
    obtain ⟨hW, h⟩ | ⟨hW, h⟩ := decBitRule_cases cfg.order l c d <;> rw [h]
    · exact .inl ⟨rfl, fun rest => if_neg hW⟩
    · exact .inr ⟨afterField_cur l _ d, fun rest => if_pos hW⟩
  | decField f =>
    obtain ⟨hphase, h⟩ := active_of_whenDecActive hactive
    refine ⟨hphase, ?_⟩
    simp only [decAfter, h] at hactive ⊢
    obtain ⟨-, h⟩ | ⟨-, h⟩ := decFieldRule_cases l (fieldOf cfg.W f) d
    · simp [h] at hactive
    · rw [h]
      exact .inr ⟨afterField_cur l _ d, fun rest => by simp [completedFields]⟩
  | decEnd =>
    obtain ⟨-, h⟩ := active_of_whenDecActive hactive
    exact absurd (h ▸ hactive) (decEndRule_not_active d)
  | reservedDec8 => exact absurd hactive (reservedDecRule_not_active d)
  | reservedDecD => exact absurd hactive (reservedDecRule_not_active d)
  | reservedDecEF low => exact absurd hactive (reservedDecRule_not_active d)
  | _ => exact ⟨hactive, .inl ⟨rfl, fun _ => rfl⟩⟩

/-- Commands but DEC.START that end in ACTIVE began in ACTIVE; `n` fields completed before them make `n` and their own
after them. -/
theorem execAll_decParity {is : List Instr} {s t : State} (hstart : .decStart ∉ is) (hrun : execAll is s = .next t)
    (hactive : t.dec.phase = .active) : s.dec.phase = .active ∧ ∀ n, s.dec.cur = parityBit n →
      t.dec.cur = parityBit (n + completedFields s.cfg.W s.dec.nbits is) := by
  induction is generalizing s with
  | nil =>
    cases hrun
    exact ⟨hactive, fun n hn => hn⟩
  | cons i rest ih =>
    rw [List.mem_cons, not_or] at hstart
    obtain ⟨hi, hrest⟩ := hstart
    rw [execAll, exec_eq] at hrun
    obtain ⟨hmid, hparity⟩ := ih hrest hrun
    obtain ⟨hphase, hcounts⟩ := decAfter_countsFields (Ne.symm hi) hmid
    refine ⟨hphase, fun n hn => ?_⟩
    obtain ⟨hcur, hfields⟩ | ⟨hcur, hfields⟩ := hcounts <;> rw [hfields]
    · exact hparity n (hcur.trans hn)
    · rw [← Nat.add_assoc]
      exact hparity (n + 1) (by simp [hcur, hn])

/-- Settles O34: a pass begins with value 0 and no bit of a field read, whether START or reset began it. -/
theorem decoderParity : Obligations.DecoderParity := by
  unfold Obligations.DecoderParity
  intro is r s t hstart hbegin hrun hactive
  have hfirst : s.dec.cur = false ∧ s.dec.nbits = 0 := by
    obtain h | ⟨cfg, level, rfl⟩ := hbegin
    · rw [exec_eq] at h
      cases h
      exact ⟨rfl, rfl⟩
    · exact ⟨rfl, rfl⟩
  obtain ⟨hcur, hnbits⟩ := hfirst
  obtain ⟨-, hparity⟩ := execAll_decParity hstart hrun hactive
  simpa [hnbits] using hparity 0 hcur

end Sys2Proof.Machine

/-! PROOFS of the memory family (20_memory.md R64; 30_encoding.md R84 to R86; 41_decoder.md R133 to R138). -/

namespace Sys2Proof.Machine

variable {W : Nat}

/-! ## Fields as bits -/

theorem lsbSum_append_singleton (c : List Bit) (b : Bit) :
    lsbSum (c ++ [b]) = lsbSum c + b.toNat * 2 ^ c.length := by
  induction c with
  | nil => simp [lsbSum]
  | cons a c ih =>
    simp only [List.cons_append, lsbSum, ih, List.length_cons, Nat.pow_succ]
    ring

/-- The MSB_FIRST sum is the LSB_FIRST sum of the same bits read backwards (30_encoding.md R85). -/
theorem msbSum_eq_lsbSum_reverse (c : List Bit) : msbSum c = lsbSum c.reverse := by
  induction c with
  | nil => rfl
  | cons a c ih =>
    rw [msbSum, ih, List.reverse_cons, lsbSum_append_singleton, List.length_reverse, Nat.add_comm]

/-- What one bit more makes of the field that bits carry: the sums of 41_decoder.md R134 and R135. -/
theorem deser_append_singleton (order : BitOrder) (c : List Bit) (b : Bit) :
    deser order (c ++ [b]) =
      match order with
      | .msbFirst => 2 * deser order c + b.toNat
      | .lsbFirst => deser order c + b.toNat * 2 ^ c.length := by
  cases order with
  | msbFirst =>
    simp only [deser, msbSum_eq_lsbSum_reverse, List.reverse_append, List.reverse_singleton, List.singleton_append,
      lsbSum]
    omega
  | lsbFirst => exact lsbSum_append_singleton c b

theorem lsbSum_lt (c : List Bit) : lsbSum c < 2 ^ c.length := by
  induction c with
  | nil => simp [lsbSum]
  | cons b c ih =>
    have hb := b.toNat_le
    rw [lsbSum, List.length_cons, Nat.pow_succ]
    omega

/-- `n` bits carry less than `2 ^ n` (10_state.md R29). -/
theorem deser_lt (order : BitOrder) (c : List Bit) : deser order c < 2 ^ c.length := by
  cases order with
  | msbFirst => simpa [deser, msbSum_eq_lsbSum_reverse] using lsbSum_lt c.reverse
  | lsbFirst => exact lsbSum_lt c

theorem lsbSum_testBits (W v : Nat) : lsbSum ((List.range W).map v.testBit) = v % 2 ^ W := by
  induction W generalizing v with
  | zero => simp [lsbSum, Nat.mod_one]
  | succ W ih =>
    have hshift : v.testBit ∘ Nat.succ = (v / 2).testBit := funext fun i => Nat.testBit_succ v i
    rw [List.range_succ_eq_map, List.map_cons, List.map_map, hshift, lsbSum, ih, Nat.testBit_zero, Nat.pow_succ',
      Nat.mod_mul]
    obtain h | h := Nat.mod_two_eq_zero_or_one v <;> simp [h]

theorem ser_length (order : BitOrder) (W v : Nat) : (ser order W v).length = W := by
  cases order <;> simp [ser]

/-- The two bit orders send the same bits in opposite directions (30_encoding.md R84). -/
theorem ser_msbFirst (W v : Nat) : ser .msbFirst W v = (ser .lsbFirst W v).reverse := by
  apply List.ext_getElem
  · simp [ser]
  · intro i h _
    simp [ser]

/-- A field's bits carry the field, in both bit orders (30_encoding.md R85). -/
theorem deser_ser (order : BitOrder) {W v : Nat} (hv : v < 2 ^ W) : deser order (ser order W v) = v := by
  have hlsb : lsbSum (ser .lsbFirst W v) = v := (lsbSum_testBits W v).trans (Nat.mod_eq_of_lt hv)
  cases order with
  | msbFirst => rw [deser, msbSum_eq_lsbSum_reverse, ser_msbFirst, List.reverse_reverse, hlsb]
  | lsbFirst => exact hlsb

/-- The field 0 is `W` zero bits, in both bit orders. -/
theorem ser_zero (order : BitOrder) (W : Nat) : ser order W 0 = List.replicate W false := by
  cases order <;> simp [ser, List.map_const']

theorem bitImage_append (order : BitOrder) (W : Nat) (F G : List Nat) :
    bitImage order W (F ++ G) = bitImage order W F ++ bitImage order W G :=
  List.flatMap_append

/-! ## Runs of several commands -/

/-- Commands executed one after the other: each unit becomes a function of itself, and nothing else changes
(42_block_control.md R174). -/
theorem execAll_eq (is : List Instr) (s : State) : execAll is s = .next { s with
    enc := is.foldl (encAfter s.cfg s.level) s.enc, dec := is.foldl (decAfter s.cfg s.level) s.dec } := by
  induction is generalizing s with
  | nil => rfl
  | cons i rest ih => rw [execAll, exec_eq]; exact ih _

/-- Commands of the decoder, and NOPs, leave the encoder as it is. -/
theorem foldl_encAfter_other {cfg : Config} {level : Level} {is : List Instr} (h : ∀ i ∈ is, i.unit ≠ some .enc)
    (e : EncUnit cfg.W) : is.foldl (encAfter cfg level) e = e := by
  induction is with
  | nil => rfl
  | cons i rest ih =>
    rw [List.forall_mem_cons] at h
    obtain ⟨hi, hrest⟩ := h
    rw [List.foldl_cons, encAfter_other hi, ih hrest]

/-- A decoder pass given bit by bit leaves the encoder as it is, and the decoder is what its own commands make of it. -/
theorem execAll_bitPass (s : State) (B : List Bit) :
    execAll (.decStart :: (B.map .decBit ++ [.decEnd])) s = .next { s with
      dec := whenDecActive decEndRule ((B.map .decBit).foldl (decAfter s.cfg s.level) (startDec s.dec)) } := by
  have hunit : ∀ i ∈ Instr.decStart :: (B.map .decBit ++ [.decEnd]), i.unit ≠ some .enc := by
    rw [List.forall_mem_cons, List.forall_mem_append, List.forall_mem_map, List.forall_mem_singleton]
    exact ⟨by decide, fun c _ => by simp [Instr.unit], by decide⟩
  rw [execAll_eq, foldl_encAfter_other hunit, List.foldl_cons, List.foldl_append]
  rfl

/-! ## The field reader -/

/-- A decoder in ACTIVE that has read no bit of its next field, and whose field reader is empty (10_state.md R29). -/
structure DecUnit.AtBoundary (d : DecUnit W) : Prop where
  phase : d.phase = .active
  nbits : d.nbits = 0
  acc : d.acc = zeroField W

theorem startDec_atBoundary (d : DecUnit W) : (startDec d).AtBoundary := ⟨rfl, rfl, rfl⟩

/-- An expanded field leaves the field reader at the next field's beginning. -/
theorem afterField_atBoundary (l : Level) (v : CountField W) {d : DecUnit W} (hd : d.AtBoundary) :
    (d.afterField l v).AtBoundary :=
  ⟨(afterField_phase l v d).trans hd.phase, (afterField_nbits l v d).trans hd.nbits,
    (afterField_acc l v d).trans hd.acc⟩

/-- The decoder whose field reader, empty before, holds the bits `c` of an incomplete field (41_decoder.md R133). -/
def DecUnit.afterBits (order : BitOrder) (c : List Bit) (d : DecUnit W) : DecUnit W :=
  { d with acc := fieldOf W (deser order c), nbits := c.length }

theorem afterBits_nil (order : BitOrder) {d : DecUnit W} (hd : d.AtBoundary) : d.afterBits order [] = d := by
  obtain ⟨-, hnbits, hacc⟩ := hd
  have hempty : fieldOf W (deser order []) = d.acc := by
    rw [hacc, ← fieldOf_self (zeroField W)]
    cases order <;> rfl
  rw [DecUnit.afterBits, hempty, List.length_nil, ← hnbits]

@[simp] theorem afterBits_nbits (order : BitOrder) (c : List Bit) (d : DecUnit W) :
    (d.afterBits order c).nbits = c.length := rfl

/-- At most `W` bits are accumulated without truncation (10_state.md R29). -/
theorem afterBits_acc_val (order : BitOrder) {c : List Bit} (d : DecUnit W) (hc : c.length ≤ W) :
    (d.afterBits order c).acc.val = deser order c :=
  fieldOf_val ((deser_lt order c).trans_le (Nat.pow_le_pow_right (by decide) hc))

/-- Inside a field the reader's next sum is that of the bits read, in either bit order (41_decoder.md R134, R135). -/
theorem accumulate_afterBits (order : BitOrder) (d : DecUnit W) {c : List Bit} (b : Bit) (hc : c.length ≤ W) :
    accumulate order (d.afterBits order c).acc (d.afterBits order c).nbits b = fieldOf W (deser order (c ++ [b])) := by
  rw [deser_append_singleton]
  cases order <;> simp only [accumulate, afterBits_acc_val _ d hc, afterBits_nbits]

variable {cfg : Config} {level : Level} {d : DecUnit cfg.W}

theorem decAfter_decBit (hphase : d.phase = .active) (c : Bit) :
    decAfter cfg level d (.decBit c) = decBitRule cfg.order level c d :=
  whenDecActive_active hphase _

/-- Fewer than `W` bits from a field's beginning stay in the field reader and do nothing else (41_decoder.md R133). -/
theorem foldl_decBit_inside (hd : d.AtBoundary) {c : List Bit} (hc : c.length < cfg.W) :
    (c.map .decBit).foldl (decAfter cfg level) d = d.afterBits cfg.order c := by
  induction c using List.reverseRecOn with
  | nil => exact (afterBits_nil cfg.order hd).symm
  | append_singleton c b ih =>
    rw [List.length_append, List.length_singleton] at hc
    have hinside : c.length < cfg.W := by omega
    have hphase : (d.afterBits cfg.order c).phase = .active := hd.phase
    rw [List.map_append, List.foldl_append, ih hinside, List.map_singleton, List.foldl_cons, List.foldl_nil,
      decAfter_decBit hphase]
    obtain ⟨-, h⟩ | ⟨hlast, -⟩ := decBitRule_cases cfg.order level b (d.afterBits cfg.order c)
    · rw [h, accumulate_afterBits cfg.order d b hinside.le, DecUnit.afterBits, DecUnit.afterBits, List.length_append,
        List.length_singleton]
    · exact absurd hlast (Nat.ne_of_lt hc)

/-- The `W` bits of a field expand it (41_decoder.md R133). -/
theorem foldl_decBit_field (hd : d.AtBoundary) {c : List Bit} (hc : c.length = cfg.W) :
    (c.map .decBit).foldl (decAfter cfg level) d = d.afterField level (fieldOf cfg.W (deser cfg.order c)) := by
  obtain rfl | ⟨init, b, rfl⟩ := List.eq_nil_or_concat' c
  · exact absurd hc (Nat.ne_of_lt cfg.width_valid.1)
  · rw [List.length_append, List.length_singleton] at hc
    have hinside : init.length < cfg.W := by omega
    have hphase : (d.afterBits cfg.order init).phase = .active := hd.phase
    rw [List.map_append, List.foldl_append, foldl_decBit_inside hd hinside, List.map_singleton, List.foldl_cons,
      List.foldl_nil, decAfter_decBit hphase]
    obtain ⟨hmore, -⟩ | ⟨-, h⟩ := decBitRule_cases cfg.order level b (d.afterBits cfg.order init)
    · exact absurd hc hmore
    · rw [h, accumulate_afterBits cfg.order d b hinside.le, ← hd.acc, ← hd.nbits]
      cases level <;> rfl

/-! ## Streams of fields -/

/-- The decoder after it has expanded the fields `F` at the command level (41_decoder.md R139). -/
def DecUnit.afterStream (F : List (CountField W)) (d : DecUnit W) : DecUnit W :=
  { d with out := d.out ++ decodeFrom d.cur (F.map Fin.val), cur := d.cur ^^ parityBit F.length }

theorem afterStream_nil (d : DecUnit W) : d.afterStream [] = d := by
  simp [DecUnit.afterStream, decodeFrom]

theorem afterStream_cons (v : CountField W) (F : List (CountField W)) (d : DecUnit W) :
    d.afterStream (v :: F) = (d.afterField .command v).afterStream F := by
  simp [DecUnit.afterStream, DecUnit.afterField, decodeFrom]

theorem afterStream_atBoundary (F : List (CountField W)) {d : DecUnit W} (hd : d.AtBoundary) :
    (d.afterStream F).AtBoundary :=
  ⟨hd.phase, hd.nbits, hd.acc⟩

/-- The bit image of a stream, read bit by bit, expands its fields (41_decoder.md R139). -/
theorem foldl_decBit_bitImage (F : List (CountField cfg.W)) (hd : d.AtBoundary) :
    ((bitImage cfg.order cfg.W (F.map Fin.val)).map .decBit).foldl (decAfter cfg .command) d = d.afterStream F := by
  induction F generalizing d with
  | nil => exact (afterStream_nil d).symm
  | cons v F ih =>
    have hfield := foldl_decBit_field (level := .command) hd (ser_length cfg.order cfg.W v.val)
    rw [deser_ser cfg.order v.isLt, fieldOf_self] at hfield
    rw [List.map_cons, bitImage, List.flatMap_cons, List.map_append, List.foldl_append, hfield, afterStream_cons]
    exact ih (afterField_atBoundary .command v hd)

/-- A bit-level pass over whole fields and the bits `c` of an incomplete one: the fields are expanded, `c` stays in the
field reader, and DEC.END sees it (41_decoder.md R137). -/
theorem execAll_fieldsThenBits {s : State} (hlevel : s.level = .command) (F : List (CountField s.cfg.W)) {c : List Bit}
    (hc : c.length < s.cfg.W) :
    execAll (.decStart :: ((bitImage s.cfg.order s.cfg.W (F.map Fin.val) ++ c).map .decBit ++ [.decEnd])) s =
      .next { s with dec := decEndRule (((startDec s.dec).afterStream F).afterBits s.cfg.order c) } := by
  have hstart := startDec_atBoundary s.dec
  rw [execAll_bitPass, List.map_append, List.foldl_append, hlevel, foldl_decBit_bitImage F hstart,
    foldl_decBit_inside (afterStream_atBoundary F hstart) hc, whenDecActive_active (by rfl)]

/-- How that pass ends: DONE when no bit is left over, and TRUNCATED_INPUT otherwise (41_decoder.md R137, R138). -/
theorem fieldsThenBits_outcome (order : BitOrder) (F : List (CountField W)) (c : List Bit) (d : DecUnit W) :
    let d' := decEndRule (((startDec d).afterStream F).afterBits order c)
    d'.out = decodePass (F.map Fin.val) ∧ d'.cur = parityBit F.length ∧
    (c.length = 0 → d'.phase = .done ∧ d'.err = .noFault) ∧
    (c.length ≠ 0 → d'.phase = .error ∧ d'.err = .truncatedInput) := by
  obtain ⟨hleft, h⟩ | ⟨hwhole, h⟩ := decEndRule_cases (((startDec d).afterStream F).afterBits order c) <;>
    dsimp only <;> rw [h]
  · exact ⟨rfl, Bool.false_xor _, fun hc => absurd hc hleft, fun _ => ⟨rfl, rfl⟩⟩
  · exact ⟨rfl, Bool.false_xor _, fun _ => ⟨rfl, rfl⟩, fun hc => absurd hwhole hc⟩

/-! ## Zero padding -/

/-- A padded bit image is that of the fields and `p / W` fields of value 0, and fewer than `W` zero bits (20_memory.md
R64). -/
theorem bitImage_zeroPadding (order : BitOrder) (F : List (CountField W)) (p : Nat) :
    bitImage order W (F.map Fin.val) ++ List.replicate p false =
      bitImage order W ((F ++ List.replicate (p / W) (zeroField W)).map Fin.val) ++
        List.replicate (p % W) false := by
  have hzeros : bitImage order W (List.replicate (p / W) 0) = List.replicate (p / W * W) false := by
    rw [bitImage, List.flatMap_replicate, ser_zero, List.flatten_replicate_replicate]
  rw [List.map_append, List.map_replicate, zeroField_val, bitImage_append, hzeros, List.append_assoc,
    List.replicate_append_replicate, Nat.div_add_mod']

/-- Fields of value 0 at the end of a stream decode to no bit (41_decoder.md R139). -/
theorem decodeFrom_append_zeros (cur : Bit) (F : List Nat) (n : Nat) :
    decodeFrom cur (F ++ List.replicate n 0) = decodeFrom cur F := by
  induction F generalizing cur with
  | nil =>
    induction n generalizing cur with
    | zero => rfl
    | succ n ih => exact ih (!cur)
  | cons v F ih => simp [decodeFrom, ih]

/-- Settles O44: the padding is `p / W` fields of value 0, which decode to no bit, and `p % W` bits more, which DEC.END
finds in the field reader. -/
theorem zeroPaddingOutcome : Obligations.ZeroPaddingOutcome := by
  unfold Obligations.ZeroPaddingOutcome
  intro s F p hlevel
  have hbits : (List.replicate (p % s.cfg.W) false).length < s.cfg.W := by
    rw [List.length_replicate]
    exact Nat.mod_lt p s.cfg.width_valid.1
  rw [bitImage_zeroPadding]
  refine ⟨_, execAll_fieldsThenBits hlevel _ hbits, ?_⟩
  obtain ⟨hout, hcur, hdone, herror⟩ := fieldsThenBits_outcome s.cfg.order
    (F ++ List.replicate (p / s.cfg.W) (zeroField s.cfg.W)) (List.replicate (p % s.cfg.W) false) s.dec
  rw [List.map_append, List.map_replicate, zeroField_val, decodePass, decodeFrom_append_zeros] at hout
  rw [List.length_append, List.length_replicate] at hcur
  rw [List.length_replicate] at hdone herror
  exact ⟨hout, hcur, fun hp => (hdone hp).1, herror⟩

end Sys2Proof.Machine

/-! PROOFS of the encoding family (30_encoding.md R72 to R87). -/

namespace Sys2Proof

/-! ## The command word (30_encoding.md R72 to R80) -/

theorem opOperand_eq (w : Nat) : opOperand w = w % 16 := by simp [opOperand, bitSlice]

theorem bitOperand_toNat (w : Nat) : (bitOperand w).toNat = w / 16 % 2 := by
  obtain h | h := Nat.mod_two_eq_zero_or_one (w / 16) <;> simp [bitOperand, bitSlice, h]

theorem fieldOperand_eq (W w : Nat) : fieldOperand W w = w / 16 % 2 ^ W := by
  simp [fieldOperand, bitSlice]

theorem opcode_lt (i : Instr) : i.opcode < 16 := by
  cases i <;> simp only [Instr.opcode] <;> omega

theorem opOperand_encode (i : Instr) : opOperand (encode i) = i.opcode := by
  rw [opOperand_eq, encode, Nat.add_mul_mod_self_left, Nat.mod_eq_of_lt (opcode_lt i)]

theorem fieldOperand_encode_decField {W f : Nat} (hf : f < 2 ^ W) : fieldOperand W (encode (.decField f)) = f := by
  have hdiv : encode (.decField f) / 16 = f := by simp only [encode, Instr.opcode, Instr.operandBits]; omega
  rw [fieldOperand_eq, hdiv, Nat.mod_eq_of_lt hf]

/-- What a word spells, by its format: CF, CB of either unit, or C0 (30_encoding.md R74, R75). -/
theorem decodeFields_cases (W w : Nat) :
    (opOperand w = 0xC ∧ decodeFields W w = .decField (fieldOperand W w)) ∨
    (opOperand w = 0x2 ∧ decodeFields W w = .encBit (bitOperand w)) ∨
    (opOperand w = 0xA ∧ decodeFields W w = .decBit (bitOperand w)) ∨
    ((opOperand w ≠ 0xC ∧ opOperand w ≠ 0x2 ∧ opOperand w ≠ 0xA) ∧ (decodeFields W w).opcode = opOperand w ∧
      (decodeFields W w).operandBits = 0 ∧ (decodeFields W w).wellFormed W = true) := by
  unfold decodeFields
  split <;> rename_i hop <;> have hval := Fin.val_eq_of_eq hop <;> dsimp only at hval
  case h_13 => exact .inl ⟨hval, rfl⟩
  case h_3 => exact .inr (.inl ⟨hval, rfl⟩)
  case h_11 => exact .inr (.inr (.inl ⟨hval, rfl⟩))
  case h_17 hlt => exact absurd hlt (by omega)
  all_goals exact .inr (.inr (.inr ⟨by omega, hval.symm, rfl, rfl⟩))

theorem opcode_decodeFields (W w : Nat) : (decodeFields W w).opcode = opOperand w := by
  obtain ⟨hop, h⟩ | ⟨hop, h⟩ | ⟨hop, h⟩ | ⟨-, hopcode, -, -⟩ := decodeFields_cases W w
  · rw [h, hop]; rfl
  · rw [h, hop]; rfl
  · rw [h, hop]; rfl
  · exact hopcode

/-- A decoded operand has its format's width (30_encoding.md R79). -/
theorem wellFormed_decodeFields (W w : Nat) : (decodeFields W w).wellFormed W = true := by
  obtain ⟨-, h⟩ | ⟨-, h⟩ | ⟨-, h⟩ | ⟨-, -, -, hwellFormed⟩ := decodeFields_cases W w
  · rw [h, fieldOperand_eq]
    exact decide_eq_true (Nat.mod_lt _ (Nat.two_pow_pos W))
  · rw [h]; rfl
  · rw [h]; rfl
  · exact hwellFormed

theorem clearIgnoredBits_CF {w : Nat} (hop : opOperand w = 0xC) : clearIgnoredBits w = w := if_pos hop

theorem clearIgnoredBits_CB {w : Nat} (hop : opOperand w = 0x2 ∨ opOperand w = 0xA) : clearIgnoredBits w = w % 32 := by
  rw [clearIgnoredBits, if_neg (by omega), if_pos hop]
  simp [bitSlice]

theorem clearIgnoredBits_C0 {w : Nat} (hop : opOperand w ≠ 0xC ∧ opOperand w ≠ 0x2 ∧ opOperand w ≠ 0xA) :
    clearIgnoredBits w = w % 16 := by
  rw [clearIgnoredBits, if_neg (by omega), if_neg (by omega)]
  simp [bitSlice]

/-- No operand bit of a command word is dropped or moved by decoding (30_encoding.md R78, R79). -/
theorem encode_decodeFields {W w : Nat} (hw : w < 2 ^ (W + 4)) : encode (decodeFields W w) = clearIgnoredBits w := by
  have hop := opOperand_eq w
  have hbit := bitOperand_toNat w
  obtain ⟨hCF, h⟩ | ⟨hCB, h⟩ | ⟨hCB, h⟩ | ⟨hC0, hopcode, hoperand, -⟩ := decodeFields_cases W w
  · have hfield : fieldOperand W w = w / 16 := by
      rw [fieldOperand_eq, Nat.mod_eq_of_lt]
      rw [Nat.pow_add] at hw
      omega
    rw [h, clearIgnoredBits_CF hCF, encode, Instr.opcode, Instr.operandBits, hfield]
    omega
  · rw [h, clearIgnoredBits_CB (.inl hCB), encode, Instr.opcode, Instr.operandBits]
    omega
  · rw [h, clearIgnoredBits_CB (.inr hCB), encode, Instr.opcode, Instr.operandBits]
    omega
  · rw [clearIgnoredBits_C0 hC0, encode, hopcode, hoperand]
    omega

/-- The encoder puts each operand where the decoder reads it (30_encoding.md R73, R79). -/
theorem decodeFields_encode {W : Nat} {i : Instr} (hi : i.wellFormed W = true) : decodeFields W (encode i) = i := by
  cases i with
  | encBit b => cases b <;> rfl
  | decBit c => cases c <;> rfl
  | reservedEnc low => fin_cases low <;> rfl
  | reservedDecEF low => fin_cases low <;> rfl
  | decField f =>
    have hop : opOperand (encode (.decField f)) = 0xC := opOperand_encode _
    obtain ⟨-, h⟩ | ⟨hCB, -⟩ | ⟨hCB, -⟩ | ⟨⟨hC0, -⟩, -⟩ := decodeFields_cases W (encode (.decField f))
    · rw [h, fieldOperand_encode_decField (of_decide_eq_true hi)]
    · omega
    · omega
    · exact absurd hop hC0
  | nop | encStart | encEnd | reservedDec8 | decStart | decEnd | reservedDecD => rfl

/-- The word of a well-formed command has `CW` bits (30_encoding.md R72). -/
theorem encode_lt {W : Nat} {i : Instr} (hW : 1 ≤ W) (hi : i.wellFormed W = true) : encode i < 2 ^ (W + 4) :=
  match i with
  | .nop => Laws.Fits.nop W hW hi
  | .encStart => Laws.Fits.encStart W hW hi
  | .encBit b => Laws.Fits.encBit b W hW hi
  | .encEnd => Laws.Fits.encEnd W hW hi
  | .reservedEnc low => Laws.Fits.reservedEnc low W hW hi
  | .reservedDec8 => Laws.Fits.reservedDec8 W hW hi
  | .decStart => Laws.Fits.decStart W hW hi
  | .decBit c => Laws.Fits.decBit c W hW hi
  | .decEnd => Laws.Fits.decEnd W hW hi
  | .decField f => Laws.Fits.decField f W hW hi
  | .reservedDecD => Laws.Fits.reservedDecD W hW hi
  | .reservedDecEF low => Laws.Fits.reservedDecEF low W hW hi

theorem decode_of_lt {W w : Nat} (hw : w < 2 ^ (W + 4)) : decode W w = .ok (decodeFields W w) := if_pos hw

theorem decode_eq_ok_iff {W w : Nat} {i : Instr} :
    decode W w = .ok i ↔ w < 2 ^ (W + 4) ∧ decodeFields W w = i := by
  by_cases hw : w < 2 ^ (W + 4) <;> simp [decode, hw]

theorem decode_encode {W : Nat} {i : Instr} (hW : 1 ≤ W) (hi : i.wellFormed W = true) : decode W (encode i) = .ok i :=
  decode_eq_ok_iff.mpr ⟨encode_lt hW hi, decodeFields_encode hi⟩

/-- A word decodes as the word with its ignored bits cleared, so words that differ in ignored bits only decode alike
(30_encoding.md R78): what is left of a word is the encoding of its command. -/
theorem decode_eq_of_clearIgnoredBits_eq {W w w' : Nat} (hw : w < 2 ^ (W + 4)) (hw' : w' < 2 ^ (W + 4))
    (hclear : clearIgnoredBits w = clearIgnoredBits w') : decode W w = decode W w' := by
  rw [decode_of_lt hw, decode_of_lt hw', ← decodeFields_encode (wellFormed_decodeFields W w), encode_decodeFields hw,
    hclear, ← encode_decodeFields hw', decodeFields_encode (wellFormed_decodeFields W w')]

end Sys2Proof

namespace Sys2Proof.Machine

/-- Settles O1: the command's word fits, and the decoder reads each operand where the encoder puts it. -/
theorem decodeOfEncode : Obligations.DecodeOfEncode := by
  unfold Obligations.DecodeOfEncode
  exact fun _ _ hW hi => decode_encode hW hi

/-- Settles O2: the decoded opcode is the word's, and the rest is what clearing ignored bits leaves. -/
theorem everyCommandWordDecodesByOpcode : Obligations.EveryCommandWordDecodesByOpcode := by
  unfold Obligations.EveryCommandWordDecodesByOpcode
  intro W _
  constructor
  · intro w hw
    exact ⟨_, decode_of_lt hw, (opcode_decodeFields W w).trans (opOperand_eq w), wellFormed_decodeFields W w⟩
  · exact fun _ _ hw hw' hclear => decode_eq_of_clearIgnoredBits_eq hw hw' hclear

/-- Settles O3, format by format (`encode_decodeFields`). -/
theorem encodeOfDecodeClearsIgnoredBits : Obligations.EncodeOfDecodeClearsIgnoredBits := by
  unfold Obligations.EncodeOfDecodeClearsIgnoredBits
  intro W w i hdecode
  obtain ⟨hw, rfl⟩ := decode_eq_ok_iff.mp hdecode
  exact ⟨hw, encode_decodeFields hw⟩

/-- Settles O4: a step sees a command word through its decoding only. -/
theorem ignoredBitsHaveNoEffect : Obligations.IgnoredBitsHaveNoEffect := by
  unfold Obligations.IgnoredBitsHaveNoEffect
  intro s w w' hw hw' hclear
  rw [runWord, runWord, decode_eq_of_clearIgnoredBits_eq hw hw' hclear]

/-- Settles O5, by evaluation of the decoder on the words of 30_encoding.md R75 and R82. -/
theorem writtenOutWordsDecode : Obligations.WrittenOutWordsDecode := by
  unfold Obligations.WrittenOutWordsDecode
  decide

/-! ## Fields as bits (30_encoding.md R84 to R87) -/

/-- The bit sent first in LSB_FIRST order is the field's lowest bit. -/
theorem ser_lsbFirst_succ (W : Nat) (b : Bit) (v : Nat) :
    ser .lsbFirst (W + 1) (b.toNat + 2 * v) = b :: ser .lsbFirst W v := by
  have hhead : (b.toNat + 2 * v).testBit 0 = b := by cases b <;> simp [Nat.testBit_zero, Nat.add_mod]
  have hdiv : (b.toNat + 2 * v) / 2 = v := by have := b.toNat_le; omega
  have htail : (b.toNat + 2 * v).testBit ∘ Nat.succ = v.testBit := funext fun i => by
    rw [Function.comp_apply, Nat.testBit_succ, hdiv]
  rw [ser, List.range_succ_eq_map, List.map_cons, List.map_map, hhead, htail]
  rfl

theorem ser_lsbSum (c : List Bit) : ser .lsbFirst c.length (lsbSum c) = c := by
  induction c with
  | nil => rfl
  | cons b c ih => rw [List.length_cons, lsbSum, ser_lsbFirst_succ, ih]

/-- Any bits are what the field they carry is sent as, in both bit orders (30_encoding.md R85). -/
theorem ser_deser (order : BitOrder) (c : List Bit) : ser order c.length (deser order c) = c := by
  cases order with
  | msbFirst =>
    rw [deser, msbSum_eq_lsbSum_reverse, ser_msbFirst, ← List.length_reverse, ser_lsbSum, List.reverse_reverse]
  | lsbFirst => exact ser_lsbSum c

/-- Settles O6: the fields' values and their bits determine each other (`deser_ser`, `ser_deser`). -/
theorem serialisationRoundTrips : Obligations.SerialisationRoundTrips := by
  unfold Obligations.SerialisationRoundTrips
  intro order W
  constructor
  · exact fun _ hv => deser_ser order hv
  · rintro c rfl
    exact ser_deser order c

theorem bitImage_cons (order : BitOrder) (W v : Nat) (F : List Nat) :
    bitImage order W (v :: F) = ser order W v ++ bitImage order W F := rfl

theorem bitImage_length (order : BitOrder) (W : Nat) (F : List Nat) :
    (bitImage order W F).length = W * F.length := by
  induction F with
  | nil => rfl
  | cons v F ih => rw [bitImage_cons, List.length_append, ser_length, ih, List.length_cons]; ring

/-- `W` bits at the head are one complete field more (30_encoding.md R87). -/
theorem completeFields_append (order : BitOrder) {W : Nat} (hW : 1 ≤ W) {c : List Bit} (hc : c.length = W)
    (B : List Bit) : completeFields order W (c ++ B) = deser order c :: completeFields order W B := by
  have hcount : (c ++ B).length / W = B.length / W + 1 := by
    rw [List.length_append, hc, Nat.add_div_left _ hW]
  have hdrop (k : Nat) : (c ++ B).drop ((k + 1) * W) = B.drop (k * W) := by
    rw [Nat.succ_mul, Nat.add_comm, ← hc, List.drop_length_add_append]
  have hhead : (c ++ B).take W = c := List.take_left' hc
  rw [completeFields, hcount, List.range_succ_eq_map, List.map_cons, List.map_map, Nat.zero_mul, List.drop_zero, hhead,
    completeFields]
  simp only [Function.comp_def, Nat.succ_eq_add_one, hdrop]

theorem completeFields_bitImage (order : BitOrder) {W : Nat} (hW : 1 ≤ W) {F : List Nat} (hF : ∀ f ∈ F, f < 2 ^ W) :
    completeFields order W (bitImage order W F) = F := by
  induction F with
  | nil => simp [bitImage, completeFields]
  | cons v F ih =>
    obtain ⟨hv, hF⟩ := List.forall_mem_cons.mp hF
    rw [bitImage_cons, completeFields_append order hW (ser_length order W v), deser_ser order hv, ih hF]

/-- The first `n` fields of a bit sequence that has that many, sent again, are its first `n * W` bits. -/
theorem flatMap_ser_deser (order : BitOrder) (W : Nat) (B : List Bit) {n : Nat} (hn : n * W ≤ B.length) :
    ((List.range n).flatMap fun k => ser order W (deser order ((B.drop (k * W)).take W))) = B.take (n * W) := by
  induction n with
  | zero => simp
  | succ n ih =>
    rw [Nat.succ_mul] at hn ⊢
    have hlength : ((B.drop (n * W)).take W).length = W := by
      rw [List.length_take, List.length_drop]
      omega
    have hfield := ser_deser order ((B.drop (n * W)).take W)
    rw [hlength] at hfield
    rw [List.range_succ, List.flatMap_append, ih (by omega), List.flatMap_singleton, hfield, List.take_add]

theorem bitImage_completeFields (order : BitOrder) (W : Nat) (B : List Bit) :
    bitImage order W (completeFields order W B) = B.take (B.length / W * W) := by
  rw [bitImage, completeFields, List.flatMap_map]
  exact flatMap_ser_deser order W B (Nat.div_mul_le_self _ _)

theorem leftoverBits_length (W : Nat) (B : List Bit) : (leftoverBits W B).length = B.length % W := by
  have hsplit := Nat.div_add_mod' B.length W
  rw [leftoverBits, List.length_drop]
  omega

/-- Settles O7: field by field, the image of a stream splits at the multiples of `W`, as R87 cuts it. -/
theorem bitImageGivesFieldsBack : Obligations.BitImageGivesFieldsBack := by
  unfold Obligations.BitImageGivesFieldsBack
  intro order W hW
  constructor
  · exact fun F hF => ⟨bitImage_length order W F, completeFields_bitImage order hW hF⟩
  · intro B
    refine ⟨?_, leftoverBits_length W B⟩
    rw [bitImage_completeFields, leftoverBits, List.take_append_drop]

/-! ## The assembler (30_encoding.md R82, R83) -/

theorem assembleCommands_eq_ok {W : Nat} {is : List Instr} (h : ∀ i ∈ is, i.wellFormed W = true) :
    assembleCommands W is = .ok (is.map encode) := by
  induction is with
  | nil => rfl
  | cons i is ih =>
    obtain ⟨hi, his⟩ := List.forall_mem_cons.mp h
    rw [assembleCommands, assembleCommand, if_pos hi, ih his, List.map_cons]

theorem wellFormed_map {α : Type} {W : Nat} {f : α → Instr} (hf : ∀ a, (f a).wellFormed W = true) (l : List α) :
    ∀ i ∈ l.map f, i.wellFormed W = true :=
  List.forall_mem_map.mpr fun a _ => hf a

theorem wellFormed_map_decField {W : Nat} {F : List Nat} (hfit : (F.all fun f => decide (f < 2 ^ W)) = true) :
    ∀ i ∈ F.map Instr.decField, i.wellFormed W = true :=
  List.forall_mem_map.mpr (List.all_eq_true.mp hfit)

theorem wellFormed_pass {W : Nat} {first last : Instr} {is : List Instr} (hfirst : first.wellFormed W = true)
    (his : ∀ i ∈ is, i.wellFormed W = true) (hlast : last.wellFormed W = true) :
    ∀ i ∈ first :: (is ++ [last]), i.wellFormed W = true :=
  List.forall_mem_cons.mpr ⟨hfirst, List.forall_mem_append.mpr ⟨his, List.forall_mem_singleton.mpr hlast⟩⟩

/-- A pseudo-instruction whose fields fit stands for well-formed commands (30_encoding.md R83). -/
theorem wellFormed_of_mem_expansion {order : BitOrder} {W : Nat} {p : Pseudo} (hfit : p.fieldsFit W = true) :
    ∀ i ∈ p.expansion order W, i.wellFormed W = true := by
  cases p with
  | encBits s => exact wellFormed_map (fun _ => rfl) s
  | encRun b n => exact fun i hi => by rw [List.eq_of_mem_replicate hi]; rfl
  | encPass s => exact wellFormed_pass rfl (wellFormed_map (fun _ => rfl) s) rfl
  | decFields F => exact wellFormed_map_decField hfit
  | decSerial F => exact wellFormed_map (fun _ => rfl) _
  | decPass F => exact wellFormed_pass rfl (wellFormed_map_decField hfit) rfl

theorem assembleLine_pseudo_fits {order : BitOrder} {W : Nat} {p : Pseudo} (hfit : p.fieldsFit W = true) :
    assembleLine order W (.pseudo p) = .ok ((p.expansion order W).map encode) :=
  (if_pos hfit).trans (assembleCommands_eq_ok (wellFormed_of_mem_expansion hfit))

theorem assembleLine_pseudo_unfit {order : BitOrder} {W : Nat} {p : Pseudo} (hunfit : p.fieldsFit W = false) :
    assembleLine order W (.pseudo p) = .error .fieldAboveMax :=
  if_neg (by simp [hunfit])

theorem assembleLine_decField_above_max (order : BitOrder) {W f : Nat} (hf : 2 ^ W ≤ f) :
    assembleLine order W (.command (.decField f)) = .error .fieldAboveMax := by
  have hreject : assembleCommand W (.decField f) = .error .fieldAboveMax :=
    if_neg (by simpa [Instr.wellFormed] using hf)
  rw [assembleLine, assembleCommands, hreject]

/-- Assembled words decode, in order, to the commands they were assembled from. -/
theorem map_decode_map_encode {W : Nat} (hW : 1 ≤ W) {is : List Instr} (h : ∀ i ∈ is, i.wellFormed W = true) :
    (is.map encode).map (decode W) = is.map .ok := by
  rw [List.map_map]
  exact List.map_congr_left fun i hi => decode_encode hW (h i hi)

/-- Settles O8: a pseudo-instruction whose fields fit stands for well-formed commands, and the encoding of each decodes
to it, as O1 has it; every other clause is one branch of the assembler. -/
theorem assembledPseudoDecodesToExpansion : Obligations.AssembledPseudoDecodesToExpansion := by
  unfold Obligations.AssembledPseudoDecodesToExpansion
  intro order W hW
  refine ⟨?_, fun p hfit => ⟨_, assembleLine_pseudo_fits hfit⟩, fun p => assembleLine_pseudo_unfit, ?_, ?_,
    fun x hx => if_pos hx, fun x hx => if_neg (Nat.not_lt.mpr hx), rfl, rfl, ?_⟩
  · intro p ws hws
    cases hfit : p.fieldsFit W with
    | false => rw [assembleLine_pseudo_unfit hfit] at hws; cases hws
    | true =>
      rw [assembleLine_pseudo_fits hfit] at hws
      cases hws
      exact map_decode_map_encode hW (wellFormed_of_mem_expansion hfit)
  · exact fun i hi => assembleCommands_eq_ok (List.forall_mem_singleton.mpr hi)
  · exact fun f hf => assembleLine_decField_above_max order hf
  · intro n hn
    rw [bitOf, if_neg (by omega), if_neg (by omega)]

end Sys2Proof.Machine

/-! PROOFS of the encoder family (40_encoder.md R102 to R114). -/

namespace Sys2Proof.Machine

variable {W : Nat}

/-! ## The encoder's commands -/

/-- ENC.BIT replaces the encoder by what its rule makes of it (40_encoder.md R102). -/
theorem exec_encBit (b : Bit) (s : State) :
    exec (.encBit b) s = .next { s with enc := whenEncActive (encBitRule s.cfg s.level b) s.enc } := by
  rw [exec_eq]
  rfl

/-- ENC.END replaces the encoder by what its rule makes of it (40_encoder.md R108). -/
theorem exec_encEnd (s : State) :
    exec .encEnd s = .next { s with enc := whenEncActive (encEndRule s.level) s.enc } := by
  rw [exec_eq]
  rfl

variable {cfg : Config}

/-- A bit of the other value emits the count and begins a run of its own (40_encoder.md R103 to R105). -/
theorem encBitRule_flip {l : Level} {b : Bit} {e : EncUnit cfg.W} (hb : b ≠ e.cur) :
    encBitRule cfg l b e = { e.afterFields l [e.count] with count := oneField cfg, cur := !e.cur } := by
  obtain ⟨-, h⟩ | ⟨hsame, -⟩ | ⟨hsame, -⟩ := encBitRule_cases cfg l b e
  · exact h
  · exact absurd hsame hb
  · exact absurd hsame hb

/-- A bit of the same value at a full counter emits `MAX` and 0 (40_encoder.md R105, R106). -/
theorem encBitRule_escape {l : Level} {e : EncUnit cfg.W} (hfull : e.count.val = cfg.MAX) :
    encBitRule cfg l e.cur e =
      { e.afterFields l [maxField cfg, zeroField cfg.W] with count := oneField cfg } := by
  obtain ⟨hflip, -⟩ | ⟨-, -, h⟩ | ⟨-, hroom, -⟩ := encBitRule_cases cfg l e.cur e
  · exact absurd rfl hflip
  · exact h
  · exact absurd hfull hroom

/-- A bit of the same value is counted where the counter has room (40_encoder.md R105). -/
theorem encBitRule_increment {l : Level} {e : EncUnit cfg.W} (hroom : e.count.val + 1 < 2 ^ cfg.W) :
    encBitRule cfg l e.cur e = { e with count := countUp e.count hroom } := by
  obtain ⟨hflip, -⟩ | ⟨-, hfull, -⟩ | ⟨-, -, _, h⟩ := encBitRule_cases cfg l e.cur e
  · exact absurd rfl hflip
  · have := cfg.MAX_lt
    unfold Config.MAX at hfull
    omega
  · exact h

/-- Settles O15: the dispatch checks decide in ERROR and DONE, and ACTIVE runs one of the rule's three cases. -/
theorem encBitFollowsItsRule : Obligations.EncBitFollowsItsRule := by
  unfold Obligations.EncBitFollowsItsRule
  intro b s
  rw [exec_encBit]
  refine ⟨fun herror => ?_, fun hdone => ?_, fun hactive hflip => ?_, fun hactive hfull hsame => ?_,
    fun hactive hsame hroom => ?_, field_le_MAX s.enc.count⟩
  · rw [whenEncActive_error herror]
  · rw [whenEncActive_done hdone]
  · rw [whenEncActive_active hactive, encBitRule_flip hflip]
    rfl
  · rw [whenEncActive_active hactive, hsame, encBitRule_escape hfull]
    rfl
  · rw [whenEncActive_active hactive, hsame, encBitRule_increment hroom]
    rfl

/-- Settles O16: the dispatch checks decide in ERROR and DONE, and ACTIVE flushes the count. -/
theorem encEndFollowsItsRule : Obligations.EncEndFollowsItsRule := by
  unfold Obligations.EncEndFollowsItsRule
  intro s
  rw [exec_encEnd]
  refine ⟨fun herror => ?_, fun hdone => ?_, fun hactive => ?_⟩
  · rw [whenEncActive_error herror]
  · rw [whenEncActive_done hdone]
  · rw [whenEncActive_active hactive, encEndRule_eq]

/-! ## The pass function, case by case -/

variable {MAX : Nat} {cur : Bit} {count : Nat} {rest : List Bit}

theorem encodeFrom_flip :
    encodeFrom MAX cur count ((!cur) :: rest) = count :: encodeFrom MAX (!cur) 1 rest := if_pos (Bool.not_ne_self cur)

theorem encodeFrom_escape :
    encodeFrom MAX cur MAX (cur :: rest) = MAX :: 0 :: encodeFrom MAX cur 1 rest := by
  simp [encodeFrom]

theorem encodeFrom_increment (hroom : count ≠ MAX) :
    encodeFrom MAX cur count (cur :: rest) = encodeFrom MAX cur (count + 1) rest := by
  simp [encodeFrom, hroom]

/-- The first bit begins the first run, after an empty run of zeros when it is 1 (40_encoder.md R104). -/
theorem encodePass_cons (hMAX : 1 ≤ MAX) (b : Bit) (rest : List Bit) :
    encodePass MAX (b :: rest) = leadingZero (b :: rest) ++ encodeFrom MAX b 1 rest := by
  cases b with
  | false => exact encodeFrom_increment (by omega)
  | true => exact encodeFrom_flip

/-! ## A pass of the encoder -/

/-- Commands of the encoder, and NOPs, leave the decoder as it is. -/
theorem foldl_decAfter_other {level : Level} {is : List Instr} (h : ∀ i ∈ is, i.unit ≠ some .dec)
    (d : DecUnit cfg.W) : is.foldl (decAfter cfg level) d = d := by
  induction is with
  | nil => rfl
  | cons i rest ih =>
    rw [List.forall_mem_cons] at h
    obtain ⟨hi, hrest⟩ := h
    rw [List.foldl_cons, decAfter_other hi, ih hrest]

/-- Commands of the encoder make the encoder a function of itself, and change nothing else (42_block_control.md R174). -/
theorem execAll_encCommands {is : List Instr} (h : ∀ i ∈ is, i.unit ≠ some .dec) (s : State) :
    execAll is s = .next { s with enc := is.foldl (encAfter s.cfg s.level) s.enc } := by
  rw [execAll_eq, foldl_decAfter_other h]

/-- The commands of a pass after its START. -/
def passBody (S : List Bit) : List Instr := S.map .encBit ++ [.encEnd]

theorem passBody_cons (b : Bit) (S : List Bit) : passBody (b :: S) = .encBit b :: passBody S := rfl

theorem passBody_unit (S : List Bit) : ∀ i ∈ passBody S, i.unit ≠ some .dec := by
  rw [passBody, List.forall_mem_append, List.forall_mem_map, List.forall_mem_singleton]
  exact ⟨fun b _ => by simp [Instr.unit], by decide⟩

/-- The fields of an encoder's pass when the bits `S` are still to come: those emitted, and what the pass function gives
for `S` from the value and the count held (40_encoder.md R110). -/
def EncUnit.passFields (e : EncUnit cfg.W) (S : List Bit) : List Nat :=
  e.out.map Fin.val ++ encodeFrom cfg.MAX e.cur e.count.val S

/-- ENC.BIT in ACTIVE takes one bit from those to come and keeps the fields of the pass (40_encoder.md R102, R110). -/
theorem encBitRule_passFields (b : Bit) (S : List Bit) (e : EncUnit cfg.W) :
    let e' := encBitRule cfg .command b e
    e'.passFields S = e.passFields (b :: S) ∧ e'.phase = e.phase ∧ e'.err = e.err := by
  obtain ⟨hb, h⟩ | ⟨rfl, hfull, h⟩ | ⟨rfl, hroom, _, h⟩ := encBitRule_cases cfg .command b e <;>
    dsimp only <;> rw [h] <;> refine ⟨?_, rfl, rfl⟩
  · simp [EncUnit.passFields, EncUnit.afterFields, Bool.eq_not_of_ne hb, encodeFrom_flip]
  · simp [EncUnit.passFields, EncUnit.afterFields, hfull, encodeFrom_escape]
  · simp [EncUnit.passFields, encodeFrom_increment hroom]

/-- ENC.END in ACTIVE, with no bit to come, has emitted the fields of the pass (40_encoder.md R108). -/
theorem encEndRule_passFields (e : EncUnit cfg.W) : (encEndRule .command e).out.map Fin.val = e.passFields [] := by
  rw [encEndRule_eq, EncUnit.passFields, encodeFrom]
  exact List.map_append

/-- From an ACTIVE encoder, the bits `S` and END emit the fields of the pass; END is what sets DONE. -/
theorem foldl_passBody (S : List Bit) {e : EncUnit cfg.W} (hactive : e.phase = .active) :
    let e' := (passBody S).foldl (encAfter cfg .command) e
    e'.out.map Fin.val = e.passFields S ∧ e'.phase = .done ∧ e'.err = e.err := by
  induction S generalizing e with
  | nil =>
    have hend : (passBody []).foldl (encAfter cfg .command) e = encEndRule .command e := whenEncActive_active hactive _
    rw [hend]
    exact ⟨encEndRule_passFields e, rfl, rfl⟩
  | cons b S ih =>
    have hbit : encAfter cfg .command e (.encBit b) = encBitRule cfg .command b e := whenEncActive_active hactive _
    obtain ⟨hfields, hphase, herr⟩ := encBitRule_passFields b S e
    obtain ⟨hout, hdone, hkept⟩ := ih (hphase.trans hactive)
    rw [passBody_cons, List.foldl_cons, hbit]
    exact ⟨hout.trans hfields, hdone, hkept.trans herr⟩

/-- Settles O35: START leaves the registers from which the pass function begins, and so does reset. -/
theorem encoderPassComputesEncode : Obligations.EncoderPassComputesEncode := by
  unfold Obligations.EncoderPassComputesEncode
  intro S
  refine ⟨fun order s hlevel => ?_, fun cfg => ?_⟩
  · have hunit : ∀ i ∈ Instr.encStart :: passBody S, i.unit ≠ some .dec :=
      List.forall_mem_cons.2 ⟨by decide, passBody_unit S⟩
    refine ⟨_, execAll_encCommands hunit s, ?_⟩
    rw [hlevel]
    exact foldl_passBody S (e := startEnc s.enc) rfl
  · exact ⟨_, execAll_encCommands (passBody_unit S) _, foldl_passBody S encReset_phase⟩

/-! ## The closed form -/

/-- `q` escapes: the fields of `q` full counters in one run (40_encoder.md R106). -/
def escapes (MAX q : Nat) : List Nat := (List.replicate q [MAX, 0]).flatten

theorem escapes_succ (MAX q : Nat) : escapes MAX (q + 1) = escapes MAX q ++ [MAX, 0] := by
  rw [escapes, List.replicate_succ', List.flatten_concat, escapes]

theorem escapes_length (MAX q : Nat) : (escapes MAX q).length = 2 * q := by
  simp [escapes, Nat.mul_comm]

theorem seg_eq (MAX L : Nat) : seg MAX L = escapes MAX ((L - 1) / MAX) ++ [L - (L - 1) / MAX * MAX] := rfl

/-- A run that has filled the counter `q` times and stands at `count` (40_encoder.md R111). -/
theorem seg_of_count {q : Nat} (hpos : 1 ≤ count) (hle : count ≤ MAX) :
    seg MAX (q * MAX + count) = escapes MAX q ++ [count] := by
  have hq : (q * MAX + count - 1) / MAX = q :=
    Nat.div_eq_of_lt_le (by omega) (by rw [Nat.add_mul]; omega)
  rw [seg_eq, hq, Nat.add_sub_cancel_left]

theorem seg_length (MAX L : Nat) : (seg MAX L).length = 2 * ((L - 1) / MAX) + 1 := by
  rw [seg_eq, List.length_append, escapes_length, List.length_singleton]

theorem runLengthsFrom_same {n : Nat} : runLengthsFrom cur n (cur :: rest) = runLengthsFrom cur (n + 1) rest :=
  if_pos rfl

theorem runLengthsFrom_flip {n : Nat} :
    runLengthsFrom cur n ((!cur) :: rest) = n :: runLengthsFrom (!cur) 1 rest := if_neg (Bool.not_ne_self cur)

/-- The segments of the runs are the escapes of the run in progress and then the pass function of what follows it
(40_encoder.md R111). -/
theorem flatMap_seg_runLengthsFrom {q : Nat} (hpos : 1 ≤ count) (hle : count ≤ MAX) (S : List Bit) :
    (runLengthsFrom cur (q * MAX + count) S).flatMap (seg MAX) = escapes MAX q ++ encodeFrom MAX cur count S := by
  induction S generalizing cur count q with
  | nil => rw [runLengthsFrom, List.flatMap_singleton, seg_of_count hpos hle, encodeFrom]
  | cons b S ih =>
    obtain rfl | rfl := Bool.eq_or_eq_not b cur
    · rw [runLengthsFrom_same]
      by_cases hfull : count = MAX
      · subst hfull
        have hnext : q * count + count + 1 = (q + 1) * count + 1 := by rw [Nat.add_one_mul]
        rw [hnext, ih le_rfl hpos, escapes_succ, encodeFrom_escape, List.append_assoc]
        rfl
      · rw [Nat.add_assoc, ih (by omega) (by omega), encodeFrom_increment hfull]
    · have hnext := ih (cur := !cur) (q := 0) le_rfl (hpos.trans hle)
      rw [Nat.zero_mul, Nat.zero_add] at hnext
      rw [runLengthsFrom_flip, List.flatMap_cons, seg_of_count hpos hle, hnext, encodeFrom_flip,
        List.append_assoc]
      rfl

/-- `encode` is its closed form (40_encoder.md R111). -/
theorem encodePass_eq_closedForm (hMAX : 1 ≤ MAX) (S : List Bit) : encodePass MAX S = encodeClosedForm MAX S := by
  cases S with
  | nil => rfl
  | cons b rest =>
    have hruns := flatMap_seg_runLengthsFrom (cur := b) (q := 0) le_rfl hMAX rest
    rw [Nat.zero_mul, Nat.zero_add] at hruns
    rw [encodePass_cons hMAX, encodeClosedForm, if_neg (List.cons_ne_nil b rest), runLengths, hruns]
    rfl

/-- Runs of alternating values, of the lengths found, are the bits read (40_encoder.md R111). -/
theorem decodeFrom_runLengthsFrom (cur : Bit) (n : Nat) (S : List Bit) :
    decodeFrom cur (runLengthsFrom cur n S) = List.replicate n cur ++ S := by
  induction S generalizing cur n with
  | nil => simp [runLengthsFrom, decodeFrom]
  | cons b S ih =>
    obtain rfl | rfl := Bool.eq_or_eq_not b cur
    · rw [runLengthsFrom_same, ih, List.replicate_succ', List.append_assoc]
      rfl
    · rw [runLengthsFrom_flip, decodeFrom, ih]
      rfl

theorem one_le_of_mem_runLengthsFrom {n : Nat} (hn : 1 ≤ n) (S : List Bit) : ∀ L ∈ runLengthsFrom cur n S, 1 ≤ L := by
  induction S generalizing cur n with
  | nil => simpa [runLengthsFrom] using hn
  | cons b S ih =>
    obtain rfl | rfl := Bool.eq_or_eq_not b cur
    · rw [runLengthsFrom_same]
      exact ih (by omega)
    · rw [runLengthsFrom_flip]
      exact List.forall_mem_cons.2 ⟨hn, ih le_rfl⟩

/-- Settles O36: the run in progress is carried as its number of escapes and the counter. -/
theorem encodeHasClosedForm : Obligations.EncodeClosedForm := by
  unfold Obligations.EncodeClosedForm
  intro MAX S hMAX
  refine ⟨encodePass_eq_closedForm hMAX S, ?_, ?_⟩
  · rintro b rest rfl
    exact decodeFrom_runLengthsFrom b 1 rest
  · cases S with
    | nil => exact List.forall_mem_nil _
    | cons b rest => exact one_le_of_mem_runLengthsFrom le_rfl rest

/-- Settles O37: the fields of the closed form are counted run by run. -/
theorem encodedFieldCount : Obligations.EncodedFieldCount := by
  unfold Obligations.EncodedFieldCount
  intro MAX S hMAX
  rw [encodePass_eq_closedForm hMAX, encodeClosedForm, fieldCountFormula]
  by_cases hempty : S = []
  · rw [if_pos hempty, if_pos hempty]
    rfl
  · rw [if_neg hempty, if_neg hempty, List.length_append, List.length_flatMap]
    simp only [seg_length]

/-! ## The end of a pass -/

/-- A pass that has counted a bit flushes a field of at least 1 (40_encoder.md R109). -/
theorem encodeFrom_last_pos (hpos : 1 ≤ count) (S : List Bit) :
    ∃ last, (encodeFrom MAX cur count S).getLast? = some last ∧ 1 ≤ last := by
  induction S generalizing cur count with
  | nil => exact ⟨count, rfl, hpos⟩
  | cons b S ih =>
    obtain rfl | rfl := Bool.eq_or_eq_not b cur
    · by_cases hfull : count = MAX
      · obtain ⟨last, hlast, h⟩ := ih (cur := b) (count := 1) le_rfl
        refine ⟨last, ?_, h⟩
        rw [hfull, encodeFrom_escape, List.getLast?_cons, List.getLast?_cons, hlast]
        rfl
      · rw [encodeFrom_increment hfull]
        exact ih (by omega)
    · obtain ⟨last, hlast, h⟩ := ih (cur := !cur) (count := 1) le_rfl
      refine ⟨last, ?_, h⟩
      rw [encodeFrom_flip, List.getLast?_cons, hlast]
      rfl

/-- The last field of `encode(S)` is at least 1 for every `S` but the empty one (40_encoder.md R109). -/
theorem encodePass_last_pos (hMAX : 1 ≤ MAX) (b : Bit) (rest : List Bit) :
    ∃ last, (encodePass MAX (b :: rest)).getLast? = some last ∧ 1 ≤ last := by
  obtain ⟨last, hlast, h⟩ := encodeFrom_last_pos (MAX := MAX) (cur := b) le_rfl rest
  refine ⟨last, ?_, h⟩
  rw [encodePass_cons hMAX, List.getLast?_append, hlast]
  rfl

/-- Copies of the value of the run in progress lengthen it. -/
theorem runLengthsFrom_replicate (n m : Nat) : runLengthsFrom cur n (List.replicate m cur) = [n + m] := by
  induction m generalizing n with
  | zero => rfl
  | succ m ih =>
    rw [List.replicate_succ, runLengthsFrom_same, ih]
    congr 1
    omega

/-- Copies of a bit after a bit of the other value are the last run (40_encoder.md R111). -/
theorem runLengthsFrom_append_replicate {b : Bit} (m : Nat) {n : Nat} {S : List Bit}
    (hlast : (cur :: S).getLast? = some (!b)) :
    ∃ Ls, runLengthsFrom cur n (S ++ List.replicate (m + 1) b) = Ls ++ [m + 1] := by
  induction S generalizing cur n with
  | nil =>
    have hcur : cur = !b := by simpa using hlast
    obtain rfl : b = !cur := by rw [hcur, Bool.not_not]
    refine ⟨[n], ?_⟩
    rw [List.nil_append, List.replicate_succ, runLengthsFrom_flip, runLengthsFrom_replicate, Nat.add_comm]
    rfl
  | cons a S ih =>
    rw [List.getLast?_cons_cons] at hlast
    obtain rfl | rfl := Bool.eq_or_eq_not a cur
    · exact runLengthsFrom_same ▸ ih hlast
    · obtain ⟨Ls, h⟩ := ih (n := 1) hlast
      exact ⟨n :: Ls, by rw [List.cons_append, runLengthsFrom_flip, h]; rfl⟩

/-- As `runLengthsFrom_append_replicate`, for a whole sequence. -/
theorem runLengths_append_replicate {b : Bit} (m : Nat) {S : List Bit} (hlast : S = [] ∨ S.getLast? = some (!b)) :
    ∃ Ls, runLengths (S ++ List.replicate (m + 1) b) = Ls ++ [m + 1] := by
  cases S with
  | nil =>
    refine ⟨[], ?_⟩
    rw [List.nil_append, List.replicate_succ, runLengths, runLengthsFrom_replicate, Nat.add_comm]
    rfl
  | cons a S => exact runLengthsFrom_append_replicate m (hlast.resolve_left (List.cons_ne_nil a S))

/-- Settles O39: a pass with a bit flushes at least 1, and the last run's segment ends the closed form. -/
theorem flushedFieldIsZeroOnlyWhenEmpty : Obligations.FlushedFieldIsZeroOnlyWhenEmpty := by
  unfold Obligations.FlushedFieldIsZeroOnlyWhenEmpty
  intro MAX S hMAX
  refine ⟨⟨fun hzero => ?_, ?_⟩, fun b hlast => ?_⟩
  · cases S with
    | nil => rfl
    | cons b rest =>
      obtain ⟨last, hlast, hpos⟩ := encodePass_last_pos hMAX b rest
      rw [hlast, Option.some_inj] at hzero
      omega
  · rintro rfl
    rfl
  · obtain ⟨Ls, hruns⟩ := runLengths_append_replicate MAX hlast
    have hseg : seg MAX (MAX + 1) = [MAX, 0, 1] := by
      simpa [escapes] using seg_of_count (q := 1) le_rfl hMAX
    have hne : S ++ List.replicate (MAX + 1) b ≠ [] := by simp
    rw [encodePass_eq_closedForm hMAX, encodeClosedForm, if_neg hne, hruns, List.flatMap_append, List.flatMap_singleton,
      hseg, ← List.append_assoc]
    exact ⟨_, rfl⟩

/-! ## Canonical sequences -/

/-- Every zero field after position 0 stands right after a `MAX` (40_encoder.md R114). -/
def ZerosFollowMax (MAX : Nat) (F : List Nat) : Prop := ∀ k, F[k + 1]? = some 0 → F[k]? = some MAX

theorem zerosFollowMax_singleton (MAX v : Nat) : ZerosFollowMax MAX [v] := by
  intro k hk
  simp at hk

theorem zerosFollowMax_cons_cons {v w : Nat} {F : List Nat} :
    ZerosFollowMax MAX (v :: w :: F) ↔ (w = 0 → v = MAX) ∧ ZerosFollowMax MAX (w :: F) := by
  constructor
  · exact fun h => ⟨fun hw => by simpa [hw] using h 0, fun k => h (k + 1)⟩
  · rintro ⟨hfirst, hrest⟩ (_ | k)
    · simpa using hfirst
    · exact hrest k

theorem ZerosFollowMax.tail {v : Nat} {F : List Nat} (h : ZerosFollowMax MAX (v :: F)) : ZerosFollowMax MAX F :=
  fun k => h (k + 1)

/-- The only zeros a counted run emits are those of its escapes, whatever field stands before (40_encoder.md R106). -/
theorem zerosFollowMax_cons_encodeFrom (hMAX : 1 ≤ MAX) (hpos : 1 ≤ count) (v : Nat) (S : List Bit) :
    ZerosFollowMax MAX (v :: encodeFrom MAX cur count S) := by
  induction S generalizing cur count v with
  | nil => exact zerosFollowMax_cons_cons.2 ⟨by omega, zerosFollowMax_singleton MAX count⟩
  | cons b S ih =>
    obtain rfl | rfl := Bool.eq_or_eq_not b cur
    · by_cases hfull : count = MAX
      · rw [hfull, encodeFrom_escape, zerosFollowMax_cons_cons, zerosFollowMax_cons_cons]
        exact ⟨by omega, fun _ => rfl, ih le_rfl 0⟩
      · rw [encodeFrom_increment hfull]
        exact ih (by omega) v
    · rw [encodeFrom_flip, zerosFollowMax_cons_cons]
      exact ⟨by omega, ih le_rfl count⟩

/-- Every pass gives a canonical sequence (40_encoder.md R114). -/
theorem canonical_encodePass (hMAX : 1 ≤ MAX) (S : List Bit) : Canonical MAX (encodePass MAX S) := by
  cases S with
  | nil => exact .inl rfl
  | cons b rest =>
    refine .inr ⟨encodePass_last_pos hMAX b rest, ?_⟩
    have hzeros := zerosFollowMax_cons_encodeFrom (cur := b) hMAX le_rfl 0 rest
    rw [encodePass_cons hMAX]
    cases b with
    | false => exact hzeros.tail
    | true => exact hzeros

/-- Bits of the value held that fit in the counter are counted (40_encoder.md R105). -/
theorem encodeFrom_replicate_append {n : Nat} (hfits : count + n ≤ MAX) (S : List Bit) :
    encodeFrom MAX cur count (List.replicate n cur ++ S) = encodeFrom MAX cur (count + n) S := by
  induction n generalizing count with
  | zero => rfl
  | succ n ih =>
    rw [List.replicate_succ, List.cons_append, encodeFrom_increment (by omega), ih (by omega)]
    congr 1
    omega

/-- The bits of a field other than 0 are encoded to it when they begin a run of their own and fit in the counter. -/
theorem encodeFrom_run {w : Nat} (hfits : w + 1 ≤ MAX) (S : List Bit) :
    encodeFrom MAX cur 1 (List.replicate w cur ++ S) = encodeFrom MAX cur (w + 1) S := by
  rw [encodeFrom_replicate_append (by omega), Nat.add_comm]

/-- From the run of the first field `v`, the bits of the fields after it are encoded to these fields, as long as every
zero among them follows `MAX` and stands before another field: a zero is an escape, any other field a flip
(40_encoder.md R114). -/
theorem encodeFrom_decodeFrom (hMAX : 1 ≤ MAX) : ∀ (G : List Nat) (cur : Bit) (v : Nat), (∀ f ∈ G, f ≤ MAX) →
    ZerosFollowMax MAX (v :: G) → G.getLast? ≠ some 0 → encodeFrom MAX cur v (decodeFrom (!cur) G) = v :: G
  | [], _, _, _, _, _ => rfl
  | (w + 1) :: G, cur, v, hle, hzeros, hlast => by
    obtain ⟨hw, hG⟩ := List.forall_mem_cons.1 hle
    have hbits : decodeFrom (!cur) ((w + 1) :: G) = (!cur) :: (List.replicate w (!cur) ++ decodeFrom (!!cur) G) := rfl
    have hlastG : G.getLast? ≠ some 0 := fun h => hlast (by rw [List.getLast?_cons, h]; rfl)
    rw [hbits, encodeFrom_flip, encodeFrom_run hw, encodeFrom_decodeFrom hMAX G (!cur) (w + 1) hG hzeros.tail hlastG]
  | [0], _, _, _, _, hlast => absurd rfl hlast
  | 0 :: 0 :: G, _, _, _, hzeros, _ => by
    obtain ⟨hzero, -⟩ := zerosFollowMax_cons_cons.1 hzeros.tail
    have := hzero rfl
    omega
  | 0 :: (w + 1) :: G, cur, v, hle, hzeros, hlast => by
    rw [List.forall_mem_cons, List.forall_mem_cons] at hle
    obtain ⟨-, hw, hG⟩ := hle
    obtain ⟨hv, -⟩ := zerosFollowMax_cons_cons.1 hzeros
    have hbits : decodeFrom (!cur) (0 :: (w + 1) :: G) = cur :: (List.replicate w cur ++ decodeFrom (!cur) G) := by
      simp [decodeFrom, List.replicate_succ]
    have hlastG : G.getLast? ≠ some 0 := fun h => hlast (by rw [List.getLast?_cons, List.getLast?_cons, h]; rfl)
    rw [hv rfl, hbits, encodeFrom_escape, encodeFrom_run hw,
      encodeFrom_decodeFrom hMAX G cur (w + 1) hG hzeros.tail.tail hlastG]

/-- The two kinds of canonical sequence in one: a first field, and after it zeros only after `MAX` and none at the end
(40_encoder.md R114). -/
theorem Canonical.exists_cons {F : List Nat} (h : Canonical MAX F) :
    ∃ v G, F = v :: G ∧ ZerosFollowMax MAX (v :: G) ∧ G.getLast? ≠ some 0 := by
  obtain rfl | ⟨⟨last, hlast, hpos⟩, hzeros⟩ := h
  · exact ⟨0, [], rfl, zerosFollowMax_singleton MAX 0, by simp⟩
  · cases F with
    | nil => cases hlast
    | cons v G =>
      refine ⟨v, G, rfl, hzeros, fun h => ?_⟩
      rw [List.getLast?_cons, h, Option.some_inj] at hlast
      exact absurd hpos (by simp [← hlast])

/-- A canonical sequence is what `encode` gives for the bits it decodes to (40_encoder.md R114). -/
theorem encodePass_decodePass {F : List Nat} (hMAX : 1 ≤ MAX) (hle : ∀ f ∈ F, f ≤ MAX) (h : Canonical MAX F) :
    encodePass MAX (decodePass F) = F := by
  obtain ⟨v, G, rfl, hzeros, hlast⟩ := h.exists_cons
  obtain ⟨hv, hG⟩ := List.forall_mem_cons.1 hle
  rw [encodePass, decodePass, decodeFrom, encodeFrom_replicate_append (by omega), Nat.zero_add,
    encodeFrom_decodeFrom hMAX G false v hG hzeros hlast]

/-- In a canonical sequence a field of at least 1 stands after every zero but the first field (40_encoder.md R114). -/
theorem Canonical.one_le_after_zero {F : List Nat} (hMAX : 1 ≤ MAX) (h : Canonical MAX F) {k : Nat}
    (hzero : F[k + 1]? = some 0) : ∃ v, F[k + 2]? = some v ∧ 1 ≤ v := by
  obtain ⟨v, G, rfl, hzeros, hlast⟩ := h.exists_cons
  simp only [List.getElem?_cons_succ] at hzero ⊢
  obtain hend | ⟨w, hw⟩ := (G[k + 1]?).eq_none_or_eq_some
  · have hk := (List.getElem?_eq_some_iff.1 hzero).1
    have hlen := List.getElem?_eq_none_iff.1 hend
    have hindex : G.length - 1 = k := by omega
    rw [List.getLast?_eq_getElem?, hindex] at hlast
    exact absurd hzero hlast
  · refine ⟨w, hw, Nat.pos_of_ne_zero ?_⟩
    rintro rfl
    have hmax := hzeros (k + 1) hw
    rw [List.getElem?_cons_succ, hzero, Option.some_inj] at hmax
    omega

/-- Settles O38: every pass gives a canonical sequence, and every canonical sequence is encoded again after decoding. -/
theorem encodeImageIsCanonical : Obligations.EncodeImageIsCanonical := by
  unfold Obligations.EncodeImageIsCanonical
  intro MAX F hMAX hle
  refine ⟨⟨?_, fun h => ⟨decodePass F, encodePass_decodePass hMAX hle h⟩⟩, fun h k => h.one_le_after_zero hMAX⟩
  rintro ⟨S, rfl⟩
  exact canonical_encodePass hMAX S

end Sys2Proof.Machine

/-! PROOFS of the decoder family (41_decoder.md R132 to R143). -/

namespace Sys2Proof.Machine

variable {W : Nat}

/-! ## The decoder's commands -/

/-- DEC.BIT replaces the decoder by what its rule makes of it (41_decoder.md R133). -/
theorem exec_decBit (c : Bit) (s : State) :
    exec (.decBit c) s = .next { s with dec := whenDecActive (decBitRule s.cfg.order s.level c) s.dec } := by
  rw [exec_eq]
  rfl

/-- DEC.END replaces the decoder by what its rule makes of it (41_decoder.md R137). -/
theorem exec_decEnd (s : State) : exec .decEnd s = .next { s with dec := whenDecActive decEndRule s.dec } := by
  rw [exec_eq]
  rfl

/-- Before the last bit of a field DEC.BIT accumulates (41_decoder.md R133). -/
theorem decBitRule_inside {order : BitOrder} {l : Level} {c : Bit} {d : DecUnit W} (hinside : d.nbits + 1 ≠ W) :
    decBitRule order l c d = { d with acc := accumulate order d.acc d.nbits c, nbits := d.nbits + 1 } := by
  obtain ⟨-, h⟩ | ⟨hlast, -⟩ := decBitRule_cases order l c d
  · exact h
  · exact absurd hlast hinside

/-- At the last bit of a field DEC.BIT expands it and empties the field reader (41_decoder.md R133). -/
theorem decBitRule_last {order : BitOrder} {l : Level} {c : Bit} {d : DecUnit W} (hlast : d.nbits + 1 = W) :
    decBitRule order l c d =
      { d.afterField l (accumulate order d.acc d.nbits c) with acc := zeroField W, nbits := 0 } := by
  obtain ⟨hinside, -⟩ | ⟨-, h⟩ := decBitRule_cases order l c d
  · exact absurd hlast hinside
  · exact h

/-- At a field boundary DEC.FIELD expands its field (41_decoder.md R136). -/
theorem decFieldRule_boundary {l : Level} {f : CountField W} {d : DecUnit W} (hboundary : d.nbits = 0) :
    decFieldRule l f d = d.afterField l f := by
  obtain ⟨hinside, -⟩ | ⟨-, h⟩ := decFieldRule_cases l f d
  · exact absurd hboundary hinside
  · exact h

/-- At a field boundary DEC.END completes the pass (41_decoder.md R137). -/
theorem decEndRule_boundary {d : DecUnit W} (hboundary : d.nbits = 0) : decEndRule d = { d with phase := .done } := by
  obtain ⟨hinside, -⟩ | ⟨-, h⟩ := decEndRule_cases d
  · exact absurd hboundary hinside
  · exact h

/-- Inside a field DEC.END faults and keeps the partial field (41_decoder.md R138). -/
theorem decEndRule_inside {d : DecUnit W} (hinside : d.nbits ≠ 0) : decEndRule d = d.faulted .truncatedInput := by
  obtain ⟨-, h⟩ | ⟨hboundary, -⟩ := decEndRule_cases d
  · exact h
  · exact absurd hboundary hinside

/-- DEC.END leaves the field reader as it is, at a field boundary and inside a field (41_decoder.md R138). -/
@[simp] theorem decEndRule_nbits (d : DecUnit W) : (decEndRule d).nbits = d.nbits := by
  obtain ⟨-, h⟩ | ⟨-, h⟩ := decEndRule_cases d <;> simp [h]

@[simp] theorem decEndRule_acc (d : DecUnit W) : (decEndRule d).acc = d.acc := by
  obtain ⟨-, h⟩ | ⟨-, h⟩ := decEndRule_cases d <;> simp [h]

/-- Settles O18: the dispatch checks decide in ERROR and DONE, and ACTIVE accumulates the bit or expands the field. -/
theorem decBitFollowsItsRule : Obligations.DecBitFollowsItsRule := by
  unfold Obligations.DecBitFollowsItsRule
  intro c s
  rw [exec_decBit]
  refine ⟨fun herror => ?_, fun hdone => ?_, fun hactive =>
    ⟨accumulate s.cfg.order s.dec.acc s.dec.nbits c, fun hnbits hacc => ?_, fun hinside => ?_, fun hlast => ?_⟩⟩
  · rw [whenDecActive_error herror]
  · rw [whenDecActive_done hdone]
  · rw [accumulate_val s.cfg.order c hnbits hacc]
    exact ⟨fun horder => by rw [horder], fun horder => by rw [horder]⟩
  · rw [whenDecActive_active hactive, decBitRule_inside hinside]
  · rw [whenDecActive_active hactive, decBitRule_last hlast]
    rfl

/-- Settles O20: the dispatch checks decide in ERROR and DONE, and ACTIVE faults or completes the pass. -/
theorem decEndFollowsItsRule : Obligations.DecEndFollowsItsRule := by
  unfold Obligations.DecEndFollowsItsRule
  intro s
  rw [exec_decEnd]
  refine ⟨fun herror => ?_, fun hdone => ?_, fun hactive hinside => ?_, fun hactive hboundary => ?_⟩
  · rw [whenDecActive_error herror]
  · rw [whenDecActive_done hdone]
  · rw [whenDecActive_active hactive, decEndRule_inside hinside]
  · rw [whenDecActive_active hactive, decEndRule_boundary hboundary]

/-- Settles O23, by the equations of expansion and emission (`expand_eq`, `emitField_eq`), read at each level. -/
theorem emissionAndExpansion : Obligations.EmissionAndExpansion := by
  unfold Obligations.EmissionAndExpansion
  intro W v e d
  rw [expand_eq, expand_eq, emitField_eq, emitField_eq]
  exact ⟨rfl, rfl, rfl, rfl⟩

/-! ## Runs of the decoder's commands -/

/-- Commands of the decoder make the decoder a function of itself, and change nothing else (42_block_control.md
R174). -/
theorem execAll_decCommands {is : List Instr} (h : ∀ i ∈ is, i.unit ≠ some .enc) (s : State) :
    execAll is s = .next { s with dec := is.foldl (decAfter s.cfg s.level) s.dec } := by
  rw [execAll_eq, foldl_encAfter_other h]

theorem execAll_decBits (B : List Bit) (s : State) :
    execAll (B.map .decBit) s = .next { s with dec := (B.map .decBit).foldl (decAfter s.cfg s.level) s.dec } :=
  execAll_decCommands (List.forall_mem_map.2 fun c _ => by simp [Instr.unit]) s

/-- The bits of a field, read from a field boundary, expand it (41_decoder.md R136). -/
theorem foldl_decBit_ser {cfg : Config} {level : Level} {d : DecUnit cfg.W} (hd : d.AtBoundary)
    (f : CountField cfg.W) :
    ((ser cfg.order cfg.W f.val).map .decBit).foldl (decAfter cfg level) d = d.afterField level f := by
  rw [foldl_decBit_field hd (ser_length cfg.order cfg.W f.val), deser_ser cfg.order f.isLt, fieldOf_self]

/-- A whole field, given at a field boundary, is expanded (41_decoder.md R136). -/
theorem decAfter_decField {cfg : Config} {level : Level} {d : DecUnit cfg.W} (hd : d.AtBoundary)
    (f : CountField cfg.W) : decAfter cfg level d (.decField f.val) = d.afterField level f := by
  rw [decAfter, whenDecActive_active hd.phase, decFieldRule_boundary hd.nbits, fieldOf_self]

/-- Settles O42: from a field boundary the reader's contents are `foldl_decBit_inside`, and the expanded field is
`foldl_decBit_field`; `n` bits carry less than `2 ^ n`, so the register holds their sum. -/
theorem fieldReaderAccumulates : Obligations.FieldReaderAccumulates := by
  unfold Obligations.FieldReaderAccumulates
  intro c s hactive hnbits hacc
  have hboundary : s.dec.AtBoundary := ⟨hactive, hnbits, Fin.ext hacc⟩
  have hval (hc : c.length ≤ s.cfg.W) : (fieldOf s.cfg.W (deser s.cfg.order c)).val = deser s.cfg.order c :=
    afterBits_acc_val s.cfg.order s.dec hc
  refine ⟨fun hc => ⟨_, hval hc.le, ?_⟩, fun hc => ⟨_, hval hc.le, ?_⟩⟩
  · rw [execAll_decBits, foldl_decBit_inside hboundary hc]
    rfl
  · rw [execAll_decBits, foldl_decBit_field hboundary hc]

/-- Settles O43: both expand the field from a field boundary. -/
theorem fieldByBitsEqualsWholeField : Obligations.FieldByBitsEqualsWholeField := by
  unfold Obligations.FieldByBitsEqualsWholeField
  intro s f hactive hnbits hacc
  have hboundary : s.dec.AtBoundary := ⟨hactive, hnbits, Fin.ext hacc⟩
  rw [execAll_decBits, foldl_decBit_ser hboundary, exec_eq, decAfter_decField hboundary]
  rfl

/-! ## Passes of the decoder -/

/-- A stream given as whole fields is expanded (41_decoder.md R139). -/
theorem foldl_decField {cfg : Config} (F : List (CountField cfg.W)) {d : DecUnit cfg.W} (hd : d.AtBoundary) :
    ((F.map Fin.val).map .decField).foldl (decAfter cfg .command) d = d.afterStream F := by
  induction F generalizing d with
  | nil => exact (afterStream_nil d).symm
  | cons v F ih =>
    rw [List.map_cons, List.map_cons, List.foldl_cons, decAfter_decField hd, afterStream_cons]
    exact ih (afterField_atBoundary .command v hd)

/-- The decoder that a pass over the fields `F` leaves (41_decoder.md R139). -/
def DecUnit.afterPass (F : List (CountField W)) (d : DecUnit W) : DecUnit W :=
  { (startDec d).afterStream F with phase := .done }

theorem decEndRule_afterStream (F : List (CountField W)) (d : DecUnit W) :
    decEndRule ((startDec d).afterStream F) = d.afterPass F := decEndRule_boundary rfl

/-- A pass given as whole fields (41_decoder.md R139). -/
theorem execAll_decPass (order : BitOrder) {s : State} (hlevel : s.level = .command) (F : List (CountField s.cfg.W)) :
    execAll ((Pseudo.decPass (F.map Fin.val)).expansion order s.cfg.W) s =
      .next { s with dec := s.dec.afterPass F } := by
  have hunit : ∀ i ∈ (Pseudo.decPass (F.map Fin.val)).expansion order s.cfg.W, i.unit ≠ some .enc := by
    rw [Pseudo.expansion, List.forall_mem_cons, List.forall_mem_append, List.forall_mem_map, List.forall_mem_singleton]
    exact ⟨by decide, fun f _ => by simp [Instr.unit], by decide⟩
  have hstart : decAfter s.cfg .command s.dec .decStart = startDec s.dec := rfl
  have hend : decAfter s.cfg .command ((startDec s.dec).afterStream F) .decEnd = s.dec.afterPass F :=
    (whenDecActive_active rfl _).trans (decEndRule_afterStream F s.dec)
  rw [execAll_decCommands hunit, hlevel, Pseudo.expansion, List.foldl_cons, List.foldl_append, hstart,
    foldl_decField F (startDec_atBoundary s.dec), List.foldl_cons, List.foldl_nil, hend]

/-- A pass given bit by bit: no bit is left over (41_decoder.md R139). -/
theorem execAll_decSerialPass {s : State} (hlevel : s.level = .command) (F : List (CountField s.cfg.W)) :
    execAll (.decStart :: ((Pseudo.decSerial (F.map Fin.val)).expansion s.cfg.order s.cfg.W ++ [.decEnd])) s =
      .next { s with dec := s.dec.afterPass F } := by
  have hbits := execAll_fieldsThenBits hlevel F (c := []) s.cfg.width_valid.1
  rw [List.append_nil, afterBits_nil s.cfg.order (afterStream_atBoundary F (startDec_atBoundary s.dec)),
    decEndRule_afterStream] at hbits
  exact hbits

/-- Settles O40: by whole fields and by bits the decoder comes to the same state, `DecUnit.afterPass`. -/
theorem decoderPassComputesDecode : Obligations.DecoderPassComputesDecode := by
  unfold Obligations.DecoderPassComputesDecode
  intro s F hlevel
  exact ⟨s.dec.afterPass F, execAll_decPass s.cfg.order hlevel F, execAll_decSerialPass hlevel F, rfl, rfl,
    Bool.false_xor _, rfl, rfl, rfl⟩

/-- A complete field has `W` bits, so it is a field of the block (10_state.md R39; 30_encoding.md R87). -/
theorem exists_map_val_eq_completeFields (order : BitOrder) (W : Nat) (B : List Bit) :
    ∃ F : List (CountField W), F.map Fin.val = completeFields order W B := by
  have hlt : ∀ f ∈ completeFields order W B, f < 2 ^ W := List.forall_mem_map.2 fun k _ =>
    (deser_lt order _).trans_le (Nat.pow_le_pow_right (by decide) (List.length_take_le _ _))
  refine ⟨(completeFields order W B).map (fieldOf W), ?_⟩
  rw [List.map_map]
  exact (List.map_congr_left fun f hf => fieldOf_val (hlt f hf)).trans (List.map_id _)

/-- Settles O41: the bits are those of the complete fields and the left-over ones, which DEC.END finds in the field
reader. -/
theorem bitLevelPassOutcome : Obligations.BitLevelPassOutcome := by
  unfold Obligations.BitLevelPassOutcome
  intro B s hlevel
  have hW := s.cfg.width_valid.1
  have hlength := leftoverBits_length s.cfg.W B
  have hleft : (leftoverBits s.cfg.W B).length < s.cfg.W := hlength ▸ Nat.mod_lt _ hW
  obtain ⟨F, hF⟩ := exists_map_val_eq_completeFields s.cfg.order s.cfg.W B
  obtain ⟨hsplit, -⟩ := (bitImageGivesFieldsBack s.cfg.order s.cfg.W hW).2 B
  have hrun := execAll_fieldsThenBits hlevel F hleft
  obtain ⟨hout, -, hdone, herror⟩ :=
    fieldsThenBits_outcome s.cfg.order F (leftoverBits s.cfg.W B) s.dec
  rw [hF, hsplit] at hrun
  rw [hF] at hout
  rw [hlength] at hdone herror
  refine ⟨_, hrun, hout, hdone, fun hpartial => ?_⟩
  obtain ⟨hphase, herr⟩ := herror hpartial
  rw [decEndRule_nbits, decEndRule_acc]
  exact ⟨hphase, herr, hlength, afterBits_acc_val s.cfg.order _ hleft.le⟩

/-! ## The pass function of the decoder -/

/-- From the value and the count of a run in progress, the encoder's fields decode to that run and the bits still to
come (41_decoder.md R143): an escape decodes to `MAX` bits and keeps the value. -/
theorem decodeFrom_encodeFrom (MAX : Nat) (cur : Bit) (count : Nat) (S : List Bit) :
    decodeFrom cur (encodeFrom MAX cur count S) = List.replicate count cur ++ S := by
  induction S generalizing cur count with
  | nil => rfl
  | cons b S ih =>
    obtain rfl | rfl := Bool.eq_or_eq_not b cur
    · by_cases hfull : count = MAX
      · rw [hfull, encodeFrom_escape, decodeFrom, decodeFrom, Bool.not_not, ih]
        rfl
      · rw [encodeFrom_increment hfull, ih, List.replicate_succ', List.append_assoc]
        rfl
    · rw [encodeFrom_flip, decodeFrom, ih]
      rfl

theorem decodePass_encodePass (MAX : Nat) (S : List Bit) : decodePass (encodePass MAX S) = S :=
  decodeFrom_encodeFrom MAX false 0 S

/-- Settles O45: the encoder's pass leaves `encode(S)` (O35), a decoder's pass over it `decode(encode(S))` (O40), and
that is `S`. -/
theorem roundTripLaw : Obligations.RoundTripLaw := by
  unfold Obligations.RoundTripLaw
  intro S
  refine ⟨fun cfg => decodePass_encodePass cfg.MAX S, fun s hlevel => ?_⟩
  obtain ⟨hencoder, -⟩ := encoderPassComputesEncode S
  obtain ⟨e, henc, hfields, -, -⟩ := hencoder s.cfg.order s hlevel
  obtain ⟨d, hwhole, hbits, hout, hdone, -⟩ := decoderPassComputesDecode { s with enc := e } e.out hlevel
  rw [hfields, decodePass_encodePass] at hout
  exact ⟨e, d, henc, hwhole, hbits, hout, hdone⟩

theorem decodeFrom_length (cur : Bit) (F : List Nat) : (decodeFrom cur F).length = F.sum := by
  induction F generalizing cur with
  | nil => rfl
  | cons v F ih => rw [decodeFrom, List.length_append, List.length_replicate, ih, List.sum_cons]

/-- Settles O46: each field gives as many bits as it says, and what `encode(S)` decodes to is `S`. -/
theorem lengthConservation : Obligations.LengthConservation := by
  unfold Obligations.LengthConservation
  refine ⟨decodeFrom_length false, fun cfg S => ?_⟩
  rw [← decodeFrom_length false, ← decodePass, decodePass_encodePass]

/-- After `k` fields the value is `k mod 2`, and it flips with every field, 0 included (41_decoder.md R142). -/
theorem decodeFrom_parityBit (k : Nat) (F : List Nat) :
    decodeFrom (parityBit k) F = (F.mapIdx fun i v => List.replicate v (parityBit (i + k))).flatten := by
  induction F generalizing k with
  | nil => rfl
  | cons v F ih =>
    rw [decodeFrom, ← parityBit_succ, ih, List.mapIdx_cons, List.flatten_cons, Nat.zero_add]
    simp only [Nat.add_right_comm, Nat.add_assoc]

/-- Settles O47: the first field is field 0, whose value is 0. -/
theorem outputParity : Obligations.OutputParity := by
  unfold Obligations.OutputParity
  exact decodeFrom_parityBit 0

end Sys2Proof.Machine

/-! PROOFS of the block-control family (42_block_control.md R170 to R174; 70_reset_and_hazards.md R241, R242). -/

namespace Sys2Proof.Machine

variable {W : Nat}

/-! ## Commands of one unit -/

/-- A command that does not select the decoder makes the encoder a function of itself and changes nothing else
(42_block_control.md R174). -/
theorem exec_encCommand {i : Instr} (h : i.unit ≠ some .dec) (s : State) :
    exec i s = .next { s with enc := encAfter s.cfg s.level s.enc i } := by
  rw [exec_eq, decAfter_other h]

/-- A command that does not select the encoder makes the decoder a function of itself and changes nothing else
(42_block_control.md R174). -/
theorem exec_decCommand {i : Instr} (h : i.unit ≠ some .enc) (s : State) :
    exec i s = .next { s with dec := decAfter s.cfg s.level s.dec i } := by
  rw [exec_eq, encAfter_other h]

/-- A command that selects no unit changes nothing (30_encoding.md R76; 42_block_control.md R170). -/
theorem exec_unitless {i : Instr} (h : i.unit = none) (s : State) : exec i s = .next s := by
  rw [exec_encCommand (by simp [h]), encAfter_other (by simp [h])]

/-- The elements at which `f` keeps every value do not count in a fold. -/
theorem foldl_filter_of_keeps {α β : Type} (f : β → α → β) {q : α → Bool} (hkeeps : ∀ b a, q a = false → f b a = b)
    (l : List α) (b : β) : (l.filter q).foldl f b = l.foldl f b := by
  have hskip : (fun b a => if q a then f b a else b) = f := by
    funext b a
    cases hq : q a with
    | true => exact if_pos rfl
    | false => exact (hkeeps b a hq).symm
  rw [List.foldl_filter, hskip]

/-- The encoder is what its own commands among those of a run make of it. -/
theorem foldl_encAfter_filter {cfg : Config} {level : Level} (is : List Instr) (e : EncUnit cfg.W) :
    (is.filter fun i => i.unit = some .enc).foldl (encAfter cfg level) e = is.foldl (encAfter cfg level) e :=
  foldl_filter_of_keeps (encAfter cfg level) (fun _ _ hother => encAfter_other (of_decide_eq_false hother)) is e

/-- The decoder is what its own commands among those of a run make of it. -/
theorem foldl_decAfter_filter {cfg : Config} {level : Level} (is : List Instr) (d : DecUnit cfg.W) :
    (is.filter fun i => i.unit = some .dec).foldl (decAfter cfg level) d = is.foldl (decAfter cfg level) d :=
  foldl_filter_of_keeps (decAfter cfg level) (fun _ _ hother => decAfter_other (of_decide_eq_false hother)) is d

theorem mem_filter_unit {is : List Instr} {u : CoreUnit} :
    ∀ i ∈ is.filter fun i => i.unit = some u, i.unit = some u := fun _ hi => by
  simpa using List.of_mem_filter hi

/-- Settles O29: a command makes its unit a function of that unit alone (`exec_encCommand`, `exec_decCommand`), and
the folds of `execAll_eq` do not see the other unit's commands (`foldl_encAfter_filter`, `foldl_decAfter_filter`). -/
theorem interleavedUnitsAreIndependent : Obligations.InterleavedUnitsAreIndependent := by
  unfold Obligations.InterleavedUnitsAreIndependent
  refine ⟨fun i s hunit => ⟨encAfter s.cfg s.level s.enc i, fun d o q => ?_⟩,
    fun i s hunit => ⟨decAfter s.cfg s.level s.dec i, fun e o q => ?_⟩, fun i s hunit => exec_unitless hunit s,
    fun is s => ⟨is.foldl (encAfter s.cfg s.level) s.enc, is.foldl (decAfter s.cfg s.level) s.dec,
      execAll_eq is s, ?_, ?_⟩⟩
  · exact exec_encCommand (by simp [hunit]) _
  · exact exec_decCommand (by simp [hunit]) _
  · rw [execAll_encCommands (fun i hi => by simp [mem_filter_unit i hi]), foldl_encAfter_filter]
  · rw [execAll_decCommands (fun i hi => by simp [mem_filter_unit i hi]), foldl_decAfter_filter]

/-- Settles O13: NOP selects no unit. -/
theorem nopChangesNothing : Obligations.NopChangesNothing := by
  unfold Obligations.NopChangesNothing
  exact exec_unitless rfl

/-! ## Reserved opcodes -/

theorem reservedEncRule_error {e : EncUnit W} (herror : e.phase = .error) : reservedEncRule e = e := by
  obtain ⟨-, h⟩ | ⟨hrunning, -⟩ := reservedEncRule_cases e
  · exact h
  · exact absurd herror hrunning

theorem reservedEncRule_fault {e : EncUnit W} (hrunning : e.phase ≠ .error) :
    reservedEncRule e = e.faulted .illegalCommand := by
  obtain ⟨herror, -⟩ | ⟨-, h⟩ := reservedEncRule_cases e
  · exact absurd herror hrunning
  · exact h

theorem reservedDecRule_error {d : DecUnit W} (herror : d.phase = .error) : reservedDecRule d = d := by
  obtain ⟨-, h⟩ | ⟨hrunning, -⟩ := reservedDecRule_cases d
  · exact h
  · exact absurd herror hrunning

theorem reservedDecRule_fault {d : DecUnit W} (hrunning : d.phase ≠ .error) :
    reservedDecRule d = d.faulted .illegalCommand := by
  obtain ⟨herror, -⟩ | ⟨-, h⟩ := reservedDecRule_cases d
  · exact absurd herror hrunning
  · exact h

/-- The reserved opcodes 0x4 to 0x7 all follow the encoder's one rule (42_block_control.md R171). -/
theorem exec_reservedEnc (low : Fin 4) (s : State) :
    exec (.reservedEnc low) s = .next { s with enc := reservedEncRule s.enc } :=
  exec_encCommand (by simp [Instr.unit]) s

/-- The reserved opcodes 0x8, 0xD, 0xE and 0xF all follow the decoder's one rule (42_block_control.md R171). -/
theorem exec_reservedDec {i : Instr}
    (hi : i = .reservedDec8 ∨ i = .reservedDecD ∨ i = .reservedDecEF 0 ∨ i = .reservedDecEF 1) (s : State) :
    exec i s = .next { s with dec := reservedDecRule s.dec } := by
  obtain rfl | rfl | rfl | rfl := hi
  all_goals exact exec_decCommand (by decide) s

/-- Settles O21: every reserved opcode follows its unit's one rule, which faults except in ERROR. -/
theorem reservedOpcodesRaiseIllegalCommand : Obligations.ReservedOpcodesRaiseIllegalCommand := by
  unfold Obligations.ReservedOpcodesRaiseIllegalCommand
  intro s
  refine ⟨fun low herror => ?_, fun low hrunning => ?_, fun i hi => ⟨fun herror => ?_, fun hrunning => ?_⟩⟩
  · rw [exec_reservedEnc, reservedEncRule_error herror]
  · rw [exec_reservedEnc, reservedEncRule_fault hrunning]
  · rw [exec_reservedDec hi, reservedDecRule_error herror]
  · rw [exec_reservedDec hi, reservedDecRule_fault hrunning]

/-! ## The step, by its input -/

section Inputs

variable {s : State} {p : HostInput} {rest : List HostInput} {i : Instr}

theorem step_no_input (hinputs : s.inputs = []) : step s = .next s := by
  simp only [step, hinputs]

theorem step_of_command (hlevel : s.level = .command) (hinputs : s.inputs = p :: rest) :
    step s = commandInput p { s with inputs := rest } := by
  simp only [step, hinputs, takeInput, hlevel]

theorem step_of_beat (hlevel : s.level = .beat) (hinputs : s.inputs = p :: rest) :
    step s = beatInput p { s with inputs := rest } := by
  simp only [step, hinputs, takeInput, hlevel]

/-- At the command level an offered command is executed (00_scope.md R14). -/
theorem commandInput_exec (hrst : p.rst = false) (hvalid : p.cmdValid = true)
    (hdecode : decode s.cfg.W p.cmdWord = .ok i) : commandInput p s = exec i s := by
  simp [commandInput, runWord, hrst, hvalid, hdecode]

/-- At the beat level an offered command is executed when the host's duty is kept and nothing pends
(70_reset_and_hazards.md R242). -/
theorem beatInput_exec (hrst : p.rst = false) (hduty : dutyBroken p s = false) (hvalid : p.cmdValid = true)
    (hdecode : decode s.cfg.W p.cmdWord = .ok i) (hready : cmdReady s = true) :
    beatInput p s = exec i { s with offered := none } := by
  simp [beatInput, hrst, hduty, hvalid, hdecode, hready]

/-- At the command level every input whose command is a word of `CW` bits is answered (42_block_control.md R173). -/
theorem commandInput_answers_next (hfit : p.cmdValid = true → p.cmdWord < 2 ^ s.cfg.CW) :
    ∃ t, commandInput p s = .next t := by
  cases hrst : p.rst with
  | true => exact ⟨_, if_pos hrst⟩
  | false =>
    cases hvalid : p.cmdValid with
    | true =>
      rw [commandInput_exec hrst hvalid (decode_of_lt (hfit hvalid))]
      exact exec_answers_next _ s
    | false => exact ⟨s, by simp [commandInput, hrst, hvalid]⟩

/-- The host breaks its duty when a word stands offered and it does not offer that word (70_reset_and_hazards.md
R241). -/
theorem dutyBroken_iff :
    dutyBroken p s = true ↔ ∃ w, s.offered = some w ∧ ¬ (p.cmdValid = true ∧ p.cmdWord = w) := by
  cases h : s.offered with
  | none => simp [dutyBroken, h]
  | some w => simp [dutyBroken, h, imp_iff_not_or]

/-- At the beat level every input whose command is a word of `CW` bits is answered, or the host's duty is broken in a
beat without reset and the refusal says so (93_implementation_defined.md I22). -/
theorem beatInput_cases (hfit : p.cmdValid = true → p.cmdWord < 2 ^ s.cfg.CW) :
    (∃ t, beatInput p s = .next t) ∨
    (p.rst = false ∧ dutyBroken p s = true ∧ beatInput p s = .refused .hostDutyBroken) := by
  cases hrst : p.rst with
  | true => exact .inl ⟨_, if_pos hrst⟩
  | false =>
    cases hduty : dutyBroken p s with
    | true => exact .inr ⟨rfl, rfl, by simp [beatInput, hrst, hduty]⟩
    | false =>
      refine .inl ?_
      cases hvalid : p.cmdValid with
      | false => exact ⟨outputTransfers p s, by simp [beatInput, hrst, hduty, hvalid]⟩
      | true =>
        have hdecode := decode_of_lt (hfit hvalid)
        cases hready : cmdReady s with
        | true =>
          rw [beatInput_exec hrst hduty hvalid hdecode hready]
          exact exec_answers_next _ _
        | false =>
          exact ⟨{ outputTransfers p s with offered := some p.cmdWord },
            by simp [beatInput, hrst, hduty, hvalid, hdecode, hready]⟩

end Inputs

/-- Settles O24: with no input the step answers the state itself, and with one `commandInput_answers_next` or
`beatInput_cases` says what it answers. -/
theorem stepStopsOnlyOnBrokenHostDuty : Obligations.StepStopsOnlyOnBrokenHostDuty := by
  unfold Obligations.StepStopsOnlyOnBrokenHostDuty
  intro s hfits
  cases hinputs : s.inputs with
  | nil =>
    have hidle := step_no_input hinputs
    exact ⟨fun _ => ⟨s, hidle⟩, fun _ => .inl ⟨s, hidle⟩⟩
  | cons p rest =>
    have hfit : p.cmdValid = true → p.cmdWord < 2 ^ s.cfg.CW := hfits p (by simp [hinputs])
    refine ⟨fun hlevel => ?_, fun hlevel => ?_⟩
    · rw [step_of_command hlevel hinputs]
      exact commandInput_answers_next hfit
    · rw [step_of_beat hlevel hinputs]
      obtain hnext | ⟨hrst, hduty, hrefused⟩ := beatInput_cases (s := { s with inputs := rest }) hfit
      · exact .inl hnext
      · obtain ⟨w, hoffered, hchanged⟩ := dutyBroken_iff.1 hduty
        exact .inr ⟨hrefused, p, rest, w, rfl, hoffered, hrst, hchanged⟩

/-- Settles O48: the step takes the input, and its command is executed. -/
theorem commandStepRunsDecodedCommand : Obligations.CommandStepRunsDecodedCommand := by
  unfold Obligations.CommandStepRunsDecodedCommand
  intro s p rest i hlevel hinputs hrst hvalid hdecode
  rw [step_of_command hlevel hinputs]
  exact commandInput_exec hrst hvalid hdecode

/-! ## The word placed for the next step -/

@[simp] theorem settle_cfg (s : State) : (settle s).cfg = s.cfg := by
  cases h : s.level <;> simp [settle, h]

@[simp] theorem settle_level (s : State) : (settle s).level = s.level := by
  cases h : s.level <;> simp [settle, h]

/-- A settled beat-level block has nothing pending and no offer, so it accepts a command in the next beat
(70_reset_and_hazards.md R242; log entry 21). -/
theorem settle_beat {s : State} (hlevel : s.level = .beat) :
    cmdReady (settle s) = true ∧ (settle s).offered = none := by
  obtain ⟨cfg, level, enc, dec, offered, inputs⟩ := s
  cases hlevel
  exact ⟨rfl, rfl⟩

theorem withFetchWord_inputs (s : State) (nbits w : Nat) :
    (s.withFetchWord nbits w).inputs = offerWord (w % 2 ^ nbits) :: (settle s).inputs := rfl

@[simp] theorem withFetchWord_level (s : State) (nbits w : Nat) : (s.withFetchWord nbits w).level = s.level :=
  settle_level s

/-- Settles O50: the settled block accepts at once, and at both levels the word placed first is executed. -/
theorem fetchWordRunsNext : Obligations.FetchWordRunsNext := by
  unfold Obligations.FetchWordRunsNext
  intro s nbits w i hdecode
  have hsettled : decode (settle s).cfg.W (w % 2 ^ nbits) = .ok i := by rwa [settle_cfg]
  have hinputs := withFetchWord_inputs s nbits w
  cases hlevel : s.level with
  | command =>
    rw [step_of_command ((withFetchWord_level s nbits w).trans hlevel) hinputs]
    exact commandInput_exec rfl rfl hsettled
  | beat =>
    obtain ⟨hready, hoffered⟩ := settle_beat hlevel
    have hduty : dutyBroken (offerWord (w % 2 ^ nbits)) (settle s) = false := by simp [dutyBroken, hoffered]
    rw [step_of_beat ((withFetchWord_level s nbits w).trans hlevel) hinputs]
    calc beatInput (offerWord (w % 2 ^ nbits)) (settle s)
      _ = exec i { settle s with offered := none } := beatInput_exec rfl hduty rfl hsettled hready
      _ = exec i (settle s) := by rw [← hoffered]

end Sys2Proof.Machine

/-! PROOFS of the exceptions family (41_decoder.md R136; 60_exceptions.md R203 to R218). -/

namespace Sys2Proof.Machine

variable {W : Nat}

/-! ## Fault entry -/

/-- Settles O22: the recorded code is the new one exactly when none was held. -/
theorem faultEntryKeepsFirstCode : Obligations.FaultEntryKeepsFirstCode := by
  unfold Obligations.FaultEntryKeepsFirstCode
  intro code s
  simp only [raiseFault_enc, raiseFault_dec, EncUnit.faulted, DecUnit.faulted]
  refine ⟨fun hnone => ?_, fun hheld => ?_, fun hnone => ?_, fun hheld => ?_⟩
  · rw [if_pos hnone]
  · rw [if_neg hheld]
  · rw [if_pos hnone]
  · rw [if_neg hheld]

/-! ## DEC.FIELD -/

/-- DEC.FIELD replaces the decoder by what its rule makes of it (41_decoder.md R136). -/
theorem exec_decField (f : Nat) (s : State) : exec (.decField f) s =
    .next { s with dec := whenDecActive (decFieldRule s.level (fieldOf s.cfg.W f)) s.dec } := by
  rw [exec_eq]
  rfl

/-- Inside a field DEC.FIELD faults (60_exceptions.md R206). -/
theorem decFieldRule_inside {l : Level} {f : CountField W} {d : DecUnit W} (hinside : d.nbits ≠ 0) :
    decFieldRule l f d = d.faulted .fieldMisaligned := by
  obtain ⟨-, h⟩ | ⟨hboundary, -⟩ := decFieldRule_cases l f d
  · exact h
  · exact absurd hboundary hinside

/-- Settles O19: the dispatch checks decide in ERROR and DONE, and ACTIVE faults or expands the field. -/
theorem decFieldFollowsItsRule : Obligations.DecFieldFollowsItsRule := by
  unfold Obligations.DecFieldFollowsItsRule
  intro s f
  rw [exec_decField, fieldOf_self]
  refine ⟨fun herror => ?_, fun hdone => ?_, fun hactive hinside => ?_, fun hactive hboundary => ?_⟩
  · rw [whenDecActive_error herror]
  · rw [whenDecActive_done hdone]
  · rw [whenDecActive_active hactive, decFieldRule_inside hinside]
  · rw [whenDecActive_active hactive, decFieldRule_boundary hboundary]

/-! ## Commands after the end of a pass -/

/-- Settles O28: each of the five commands opens with its unit's dispatch checks, which fault in DONE. -/
theorem phaseFaultAfterEnd : Obligations.PhaseFaultAfterEnd := by
  unfold Obligations.PhaseFaultAfterEnd
  intro i u s hunit hdone hi
  obtain ⟨b, rfl | rfl⟩ | ⟨f, rfl⟩ | rfl | rfl := hi <;> cases hunit
  · rw [exec_encBit, whenEncActive_done hdone, raiseFault_enc]
  · rw [exec_decBit, whenDecActive_done hdone, raiseFault_dec]
  · rw [exec_decField, whenDecActive_done hdone, raiseFault_dec]
  · rw [exec_encEnd, whenEncActive_done hdone, raiseFault_enc]
  · rw [exec_decEnd, whenDecActive_done hdone, raiseFault_dec]

/-! ## Commands in ERROR -/

/-- In ERROR no command but ENC.START changes the encoder (60_exceptions.md R209). -/
theorem encAfter_error {cfg : Config} {level : Level} {e : EncUnit cfg.W} {i : Instr} (herror : e.phase = .error)
    (hstart : i ≠ .encStart) : encAfter cfg level e i = e := by
  cases i with
  | encStart => exact absurd rfl hstart
  | encBit b => exact whenEncActive_error herror _
  | encEnd => exact whenEncActive_error herror _
  | reservedEnc low => exact reservedEncRule_error herror
  | _ => rfl

/-- In ERROR no command but DEC.START changes the decoder (60_exceptions.md R209). -/
theorem decAfter_error {cfg : Config} {level : Level} {d : DecUnit cfg.W} {i : Instr} (herror : d.phase = .error)
    (hstart : i ≠ .decStart) : decAfter cfg level d i = d := by
  cases i with
  | decStart => exact absurd rfl hstart
  | decBit c => exact whenDecActive_error herror _
  | decEnd => exact whenDecActive_error herror _
  | decField f => exact whenDecActive_error herror _
  | reservedDec8 => exact reservedDecRule_error herror
  | reservedDecD => exact reservedDecRule_error herror
  | reservedDecEF low => exact reservedDecRule_error herror
  | _ => rfl

/-- Settles O26: a command writes its own unit only, and that unit ignores it (`encAfter_error`, `decAfter_error`). -/
theorem errorPhaseIgnoresCommands : Obligations.ErrorPhaseIgnoresCommands := by
  unfold Obligations.ErrorPhaseIgnoresCommands
  intro i u s hunit hencStart hdecStart herror
  cases u with
  | enc => rw [exec_encCommand (by simp [hunit]), encAfter_error herror hencStart]
  | dec => rw [exec_decCommand (by simp [hunit]), decAfter_error herror hdecStart]

/-- A command that takes a unit out of ERROR is that unit's START, and it clears the code (60_exceptions.md R210). -/
theorem exec_leaves_error {i : Instr} {s t : State} {u : CoreUnit} (hexec : exec i s = .next t)
    (herror : phaseOf u s = .error) (hleft : phaseOf u t ≠ .error) :
    errOf u t = .noFault ∧ i.unit = some u ∧ (i = .encStart ∨ i = .decStart) := by
  rw [exec_eq] at hexec
  cases hexec
  cases u with
  | enc =>
    by_cases hstart : i = .encStart
    · subst hstart
      exact ⟨rfl, rfl, .inl rfl⟩
    · simp only [phaseOf, encAfter_error herror hstart] at hleft
      exact absurd herror hleft
  | dec =>
    by_cases hstart : i = .decStart
    · subst hstart
      exact ⟨rfl, rfl, .inr rfl⟩
    · simp only [phaseOf, decAfter_error herror hstart] at hleft
      exact absurd herror hleft

/-- A beat's transfers change no phase (10_state.md R25). -/
theorem phaseOf_outputTransfers (u : CoreUnit) (p : HostInput) (s : State) :
    phaseOf u (outputTransfers p s) = phaseOf u s := by
  cases u with
  | enc => cases h : p.foReady <;> simp [phaseOf, h]
  | dec => cases h : p.boReady <;> simp [phaseOf, h]

theorem errOf_resetBlock (u : CoreUnit) (s : State) : errOf u (resetBlock s) = .noFault := by
  cases u <;> rfl

/-- Settles O27, by what a step can do (`step_cases`): a reset clears the code, an executed command that leaves ERROR is
the unit's START (`exec_leaves_error`), and nothing else changes a phase. -/
theorem onlyStartOrResetLeavesError : Obligations.OnlyStartOrResetLeavesError := by
  unfold Obligations.OnlyStartOrResetLeavesError
  intro s t u hstep herror hleft
  obtain ⟨-, rfl⟩ | ⟨p, rest, hinputs, hreset | hcommand | hidle | haccepted | hwaits | htransfers⟩ :=
    step_cases hstep
  · exact absurd herror hleft
  · obtain ⟨hrst, rfl⟩ := hreset
    exact ⟨errOf_resetBlock u _, p, rest, hinputs, .inl hrst⟩
  · obtain ⟨-, hvalid, -, i, hdecode, hexec⟩ := hcommand
    obtain ⟨hcleared, hunit, hstart⟩ := exec_leaves_error hexec herror hleft
    exact ⟨hcleared, p, rest, hinputs, .inr ⟨hvalid, i, hdecode, hunit, hstart⟩⟩
  · obtain ⟨-, -, -, rfl⟩ := hidle
    exact absurd herror hleft
  · obtain ⟨-, hvalid, -, -, -, i, hdecode, hexec⟩ := haccepted
    obtain ⟨hcleared, hunit, hstart⟩ := exec_leaves_error hexec herror hleft
    exact ⟨hcleared, p, rest, hinputs, .inr ⟨hvalid, i, hdecode, hunit, hstart⟩⟩
  · obtain ⟨-, -, -, -, -, -, rfl⟩ := hwaits
    exact absurd ((phaseOf_outputTransfers u p _).trans herror) hleft
  · obtain ⟨-, -, -, -, rfl⟩ := htransfers
    exact absurd ((phaseOf_outputTransfers u p _).trans herror) hleft

/-! ## Faults are precise -/

/-- If the encoder `e'` is in ERROR, it is `e` after a fault entry and nothing else (60_exceptions.md R204). -/
def EncUnit.FaultIsPrecise (e e' : EncUnit W) : Prop :=
  e'.phase = .error → ∃ code, code ≠ .noFault ∧ e' = e.faulted code

/-- If the decoder `d'` is in ERROR, it is `d` after a fault entry and nothing else (60_exceptions.md R204). -/
def DecUnit.FaultIsPrecise (d d' : DecUnit W) : Prop :=
  d'.phase = .error → ∃ code, code ≠ .noFault ∧ d' = d.faulted code

theorem encFaulted_isPrecise {code : ErrCode} (hcode : code ≠ .noFault) (e : EncUnit W) :
    e.FaultIsPrecise (e.faulted code) := fun _ => ⟨code, hcode, rfl⟩

theorem decFaulted_isPrecise {code : ErrCode} (hcode : code ≠ .noFault) (d : DecUnit W) :
    d.FaultIsPrecise (d.faulted code) := fun _ => ⟨code, hcode, rfl⟩

/-- ENC.BIT in ACTIVE ends in the phase it began in: its overflow check never fails (40_encoder.md R107). -/
@[simp] theorem encBitRule_phase (cfg : Config) (l : Level) (b : Bit) (e : EncUnit cfg.W) :
    (encBitRule cfg l b e).phase = e.phase := by
  obtain ⟨-, h⟩ | ⟨-, -, h⟩ | ⟨-, -, _, h⟩ := encBitRule_cases cfg l b e <;> simp [h]

/-- DEC.BIT in ACTIVE raises no fault (41_decoder.md R133). -/
@[simp] theorem decBitRule_phase (order : BitOrder) (l : Level) (c : Bit) (d : DecUnit W) :
    (decBitRule order l c d).phase = d.phase := by
  obtain ⟨-, h⟩ | ⟨-, h⟩ := decBitRule_cases order l c d <;> simp [h]

/-- A command that finds the encoder outside ERROR brings it there by a fault entry or not at all. -/
theorem encAfter_faultIsPrecise {cfg : Config} (l : Level) {e : EncUnit cfg.W} (hrunning : e.phase ≠ .error)
    (i : Instr) : e.FaultIsPrecise (encAfter cfg l e i) := by
  have hself : e.FaultIsPrecise e := fun herror => absurd herror hrunning
  have hphase : e.FaultIsPrecise (e.faulted .phase) := encFaulted_isPrecise (by decide) e
  cases i with
  | encStart => exact fun herror => nomatch herror
  | encBit b =>
    exact whenEncActive_keeps e.FaultIsPrecise hself hphase fun _ herror =>
      absurd ((encBitRule_phase cfg l b e).symm.trans herror) hrunning
  | encEnd => exact whenEncActive_keeps e.FaultIsPrecise hself hphase fun _ herror => nomatch herror
  | reservedEnc low => exact reservedEncRule_keeps e.FaultIsPrecise hself (encFaulted_isPrecise (by decide) e)
  | _ => exact hself

theorem decFieldRule_faultIsPrecise (l : Level) (f : CountField W) {d : DecUnit W} (hrunning : d.phase ≠ .error) :
    d.FaultIsPrecise (decFieldRule l f d) := by
  obtain ⟨-, h⟩ | ⟨-, h⟩ := decFieldRule_cases l f d <;> rw [h]
  · exact decFaulted_isPrecise (by decide) d
  · exact fun herror => absurd ((afterField_phase l f d).symm.trans herror) hrunning

theorem decEndRule_faultIsPrecise (d : DecUnit W) : d.FaultIsPrecise (decEndRule d) := by
  obtain ⟨-, h⟩ | ⟨-, h⟩ := decEndRule_cases d <;> rw [h]
  · exact decFaulted_isPrecise (by decide) d
  · exact fun herror => nomatch herror

/-- As `encAfter_faultIsPrecise`, for the decoder. -/
theorem decAfter_faultIsPrecise {cfg : Config} (l : Level) {d : DecUnit cfg.W} (hrunning : d.phase ≠ .error)
    (i : Instr) : d.FaultIsPrecise (decAfter cfg l d i) := by
  have hself : d.FaultIsPrecise d := fun herror => absurd herror hrunning
  have hphase : d.FaultIsPrecise (d.faulted .phase) := decFaulted_isPrecise (by decide) d
  have hillegal : d.FaultIsPrecise (reservedDecRule d) :=
    reservedDecRule_keeps d.FaultIsPrecise hself (decFaulted_isPrecise (by decide) d)
  cases i with
  | decStart => exact fun herror => nomatch herror
  | decBit c =>
    exact whenDecActive_keeps d.FaultIsPrecise hself hphase fun _ herror =>
      absurd ((decBitRule_phase cfg.order l c d).symm.trans herror) hrunning
  | decField f =>
    exact whenDecActive_keeps d.FaultIsPrecise hself hphase fun _ => decFieldRule_faultIsPrecise l _ hrunning
  | decEnd => exact whenDecActive_keeps d.FaultIsPrecise hself hphase fun _ => decEndRule_faultIsPrecise d
  | reservedDec8 => exact hillegal
  | reservedDecD => exact hillegal
  | reservedDecEF low => exact hillegal
  | _ => exact hself

/-- Settles O25: a command of the other unit does not bring this one into ERROR, and the unit's own command does so by a
fault entry only (`encAfter_faultIsPrecise`, `decAfter_faultIsPrecise`). -/
theorem faultsArePrecise : Obligations.FaultsArePrecise := by
  unfold Obligations.FaultsArePrecise
  intro i s t u hexec hrunning herror
  cases u with
  | enc =>
    by_cases hother : i.unit = some .dec
    · rw [exec_decCommand (by simp [hother])] at hexec
      cases hexec
      exact absurd herror hrunning
    · rw [exec_encCommand hother] at hexec
      cases hexec
      obtain ⟨code, hcode, h⟩ := encAfter_faultIsPrecise s.level hrunning i herror
      exact ⟨code, hcode, by rw [h, raiseFault_enc]⟩
  | dec =>
    by_cases hother : i.unit = some .enc
    · rw [exec_encCommand (by simp [hother])] at hexec
      cases hexec
      exact absurd herror hrunning
    · rw [exec_decCommand hother] at hexec
      cases hexec
      obtain ⟨code, hcode, h⟩ := decAfter_faultIsPrecise s.level hrunning i herror
      exact ⟨code, hcode, by rw [h, raiseFault_dec]⟩

/-! ## The idle beat -/

theorem transferField_of_pend_nil {e : EncUnit W} (hpend : e.pend = []) : transferField e = e := by
  simp only [transferField, hpend]

theorem transferBit_of_remaining_zero {d : DecUnit W} (hremaining : d.remaining.val = 0) : transferBit d = d :=
  if_pos hremaining

/-- With nothing pending a beat transfers nothing, whatever the `ready` pins (70_reset_and_hazards.md R244, R245). -/
theorem outputTransfers_of_nothing_pending (p : HostInput) {s : State} (hpend : s.enc.pend = [])
    (hremaining : s.dec.remaining.val = 0) : outputTransfers p s = s := by
  simp only [outputTransfers, transferField_of_pend_nil hpend, transferBit_of_remaining_zero hremaining, ite_self]

/-- At the command level an input without reset and command changes nothing (60_exceptions.md R218). -/
theorem commandInput_idle {p : HostInput} (hrst : p.rst = false) (hvalid : p.cmdValid = false) (s : State) :
    commandInput p s = .next s := by
  simp [commandInput, hrst, hvalid]

/-- A beat without reset and command, that no offer binds, only transfers (70_reset_and_hazards.md R241). -/
theorem beatInput_idle {p : HostInput} {s : State} (hrst : p.rst = false) (hvalid : p.cmdValid = false)
    (hoffered : s.offered = none) : beatInput p s = .next (outputTransfers p s) := by
  simp [beatInput, dutyBroken, hrst, hvalid, hoffered]

/-- At both levels an input without reset and command, while nothing is offered or pending, changes nothing. -/
theorem takeInput_idle {p : HostInput} {s : State} (hrst : p.rst = false) (hvalid : p.cmdValid = false)
    (hoffered : s.offered = none) (hpend : s.enc.pend = []) (hremaining : s.dec.remaining.val = 0) :
    takeInput p s = .next s := by
  unfold takeInput
  split
  · exact commandInput_idle hrst hvalid s
  · rw [beatInput_idle hrst hvalid hoffered, outputTransfers_of_nothing_pending p hpend hremaining]

theorem step_of_input {s : State} {p : HostInput} {rest : List HostInput} (hinputs : s.inputs = p :: rest) :
    step s = takeInput p { s with inputs := rest } := by
  simp only [step, hinputs]

/-- Settles O54: without a command the command level does nothing and the beat level transfers what pends, which is
nothing. -/
theorem idleBeatChangesNothing : Obligations.IdleBeatChangesNothing := by
  unfold Obligations.IdleBeatChangesNothing
  refine fun s => ⟨step_no_input, fun p rest hinputs hrst hvalid hoffered hpend hremaining => ?_⟩
  rw [step_of_input hinputs]
  exact takeInput_idle hrst hvalid hoffered hpend hremaining

end Sys2Proof.Machine

/-! PROOFS of the reset and hazards family (70_reset_and_hazards.md R230 to R251). -/

namespace Sys2Proof.Machine

variable {W : Nat}

/-! ## A beat, by its input -/

section Beat

variable {s t : State} {p : HostInput} {rest : List HostInput} {i : Instr}

/-- At both levels an input with `rst = 1` resets the block, whatever else it holds (70_reset_and_hazards.md R230). -/
theorem takeInput_reset (hrst : p.rst = true) (s : State) : takeInput p s = .next (resetBlock s) := by
  unfold takeInput
  split
  · exact if_pos hrst
  · exact if_pos hrst

theorem step_of_reset (hinputs : s.inputs = p :: rest) (hrst : p.rst = true) :
    step s = .next (resetBlock { s with inputs := rest }) := by
  rw [step_of_input hinputs, takeInput_reset hrst]

/-- An offered command waits while output pends: the beat's transfers happen and the offer is kept
(70_reset_and_hazards.md R242). -/
theorem beatInput_waits (hrst : p.rst = false) (hduty : dutyBroken p s = false) (hvalid : p.cmdValid = true)
    (hdecode : decode s.cfg.W p.cmdWord = .ok i) (hready : cmdReady s = false) :
    beatInput p s = .next { outputTransfers p s with offered := some p.cmdWord } := by
  simp [beatInput, hrst, hduty, hvalid, hdecode, hready]

/-- A host that offers nothing before, or the same word as before, keeps its duty (70_reset_and_hazards.md R241). -/
theorem duty_kept (hvalid : p.cmdValid = true) (hoffered : s.offered = none ∨ s.offered = some p.cmdWord) :
    dutyBroken p s = false := by
  obtain h | h := hoffered <;> simp [dutyBroken, h, hvalid]

/-- A beat without reset that is answered accepts the command it offers, with nothing pending, or only transfers
output and settles what stands offered. -/
theorem beat_cases (hlevel : s.level = .beat) (hinputs : s.inputs = p :: rest) (hrst : p.rst = false)
    (hstep : step s = .next t) :
    (p.cmdValid = true ∧ cmdReady s = true ∧ ∃ i, decode s.cfg.W p.cmdWord = .ok i ∧
      exec i { s with inputs := rest, offered := none } = .next t) ∨
    ((p.cmdValid = false ∨ cmdReady s = false) ∧
      ∃ o, t = { outputTransfers p { s with inputs := rest } with offered := o }) := by
  obtain ⟨hnil, -⟩ | ⟨q, later, hcons, hcases⟩ := step_cases hstep
  · simp [hinputs] at hnil
  · obtain ⟨rfl, rfl⟩ : p = q ∧ rest = later := by simpa [hinputs] using hcons
    obtain ⟨hreset, -⟩ | ⟨-, -, hcommand, -⟩ | ⟨-, -, hcommand, -⟩ | haccepted | hwaits | htransfers := hcases
    · simp [hrst] at hreset
    · simp [hlevel] at hcommand
    · simp [hlevel] at hcommand
    · obtain ⟨-, hvalid, -, -, hready, hexec⟩ := haccepted
      exact .inl ⟨hvalid, hready, hexec⟩
    · obtain ⟨-, -, -, -, hbusy, -, ht⟩ := hwaits
      exact .inr ⟨.inr hbusy, _, ht⟩
    · obtain ⟨-, hvalid, -, -, ht⟩ := htransfers
      exact .inr ⟨.inl hvalid, s.offered, ht⟩

/-- While output pends, a beat without reset that is answered only transfers output and settles what stands offered. -/
theorem beat_of_busy (hlevel : s.level = .beat) (hinputs : s.inputs = p :: rest) (hrst : p.rst = false)
    (hbusy : cmdReady s = false) (hstep : step s = .next t) :
    ∃ o, t = { outputTransfers p { s with inputs := rest } with offered := o } := by
  obtain ⟨-, hready, -⟩ | ⟨-, h⟩ := beat_cases hlevel hinputs hrst hstep
  · simp [hbusy] at hready
  · exact h

/-- While output pends, a beat without reset of a host that keeps its duty is answered, and only transfers output. -/
theorem step_of_busy (hlevel : s.level = .beat) (hinputs : s.inputs = p :: rest) (hrst : p.rst = false)
    (hduty : dutyBroken p s = false) (hfits : s.InputsFit) (hbusy : cmdReady s = false) :
    ∃ o, step s = .next { outputTransfers p { s with inputs := rest } with offered := o } := by
  have hfit : p.cmdValid = true → p.cmdWord < 2 ^ s.cfg.CW := hfits p (by simp [hinputs])
  obtain ⟨t, ht⟩ | ⟨-, hbroken, -⟩ := beatInput_cases (s := { s with inputs := rest }) hfit
  · have hstep : step s = .next t := (step_of_beat hlevel hinputs).trans ht
    obtain ⟨o, rfl⟩ := beat_of_busy hlevel hinputs hrst hbusy hstep
    exact ⟨o, hstep⟩
  · exact nomatch hduty.symm.trans hbroken

theorem foValid_iff (s : State) : foValid s = true ↔ s.enc.pend ≠ [] := by
  simp [foValid]

theorem boValid_iff (s : State) : boValid s = true ↔ 0 < s.dec.remaining.val := by
  simp [boValid]

theorem busy_of_foValid (hvalid : foValid s = true) : cmdReady s = false := by
  rw [Bool.eq_false_iff]
  intro hready
  obtain ⟨hpend, -⟩ := (cmdReady_iff s).1 hready
  exact (foValid_iff s).1 hvalid hpend

theorem busy_of_boValid (hvalid : boValid s = true) : cmdReady s = false := by
  rw [Bool.eq_false_iff]
  intro hready
  obtain ⟨-, hremaining⟩ := (cmdReady_iff s).1 hready
  exact ((boValid_iff s).1 hvalid).ne' hremaining

end Beat

/-- Settles O11: reset wins over all else the input offers (`step_of_reset`). -/
theorem resetInputGivesResetState : Obligations.ResetInputGivesResetState := by
  unfold Obligations.ResetInputGivesResetState
  intro s p rest hinputs hrst
  exact step_of_reset hinputs hrst

/-- Settles O49: the command is executed (`beatInput_exec`) or waits (`beatInput_waits`) as `cmd_ready` says. -/
theorem beatAcceptsOnlyWhenNothingPending : Obligations.BeatAcceptsOnlyWhenNothingPending := by
  unfold Obligations.BeatAcceptsOnlyWhenNothingPending
  intro s p rest i hlevel hinputs hrst hvalid hdecode hoffered
  have hduty : dutyBroken p { s with inputs := rest } = false := duty_kept hvalid hoffered
  rw [step_of_beat hlevel hinputs]
  refine ⟨cmdReady_iff s, fun hready => ?_, fun hbusy => ?_⟩
  · exact beatInput_exec hrst hduty hvalid hdecode hready
  · exact beatInput_waits hrst hduty hvalid hdecode hbusy

/-! ## Transfers of output -/

theorem transferField_of_pend_cons {e : EncUnit W} {f : CountField W} {fs : List (CountField W)}
    (hpend : e.pend = f :: fs) : transferField e = { e with out := e.out ++ [f], pend := fs } := by
  simp only [transferField, hpend]

theorem transferBit_of_remaining_pos {d : DecUnit W} (hremaining : 0 < d.remaining.val) :
    transferBit d = { d with out := d.out ++ [d.xval], remaining := countDown d.remaining } :=
  if_neg hremaining.ne'

/-- Settles O51: while a field pends the beat is its transfers (`step_of_busy`), and that of the encoder moves the first
field. -/
theorem fieldTransfer : Obligations.FieldTransfer := by
  unfold Obligations.FieldTransfer
  intro s p rest f fs hlevel hinputs hrst hduty hfits hpend
  have hvalid : foValid s = true := (foValid_iff s).2 (by simp [hpend])
  obtain ⟨o, hstep⟩ := step_of_busy hlevel hinputs hrst hduty hfits (busy_of_foValid hvalid)
  refine ⟨hvalid, by simp [foData, hpend], (outputTransfers p s).enc, (outputTransfers p s).dec, o, hstep,
    fun htaken => ?_, fun hwaits => ?_⟩
  · rw [outputTransfers_enc, if_pos htaken, transferField_of_pend_cons hpend]
  · simp [hwaits]

/-- Settles O52: while bits pend the beat is its transfers (`step_of_busy`), and that of the decoder moves one copy. -/
theorem bitTransfer : Obligations.BitTransfer := by
  unfold Obligations.BitTransfer
  intro s p rest hlevel hinputs hrst hduty hfits hremaining
  have hvalid : boValid s = true := (boValid_iff s).2 hremaining
  obtain ⟨o, hstep⟩ := step_of_busy hlevel hinputs hrst hduty hfits (busy_of_boValid hvalid)
  refine ⟨hvalid, rfl, (outputTransfers p s).enc, (outputTransfers p s).dec, o, countDown s.dec.remaining, hstep,
    Nat.sub_add_cancel hremaining, fun htaken => ?_, fun hwaits => ?_⟩
  · rw [outputTransfers_dec, if_pos htaken, transferBit_of_remaining_pos hremaining]
  · simp [hwaits]

/-- Settles O53: an offered output keeps commands out (`beat_of_busy`), and a transfer that does not happen leaves its
unit as it is. -/
theorem offeredOutputIsHeld : Obligations.OfferedOutputIsHeld := by
  unfold Obligations.OfferedOutputIsHeld
  intro s t p rest hlevel hinputs hrst hstep
  refine ⟨fun hvalid hwaits => ?_, fun hvalid hwaits => ?_⟩
  · obtain ⟨o, rfl⟩ := beat_of_busy hlevel hinputs hrst (busy_of_foValid hvalid) hstep
    exact ⟨by simpa [foValid, hwaits] using hvalid, by simp [foData, hwaits]⟩
  · obtain ⟨o, rfl⟩ := beat_of_busy hlevel hinputs hrst (busy_of_boValid hvalid) hstep
    exact ⟨by simpa [boValid, hwaits] using hvalid, by simp [boData, hwaits]⟩

/-! ## The two levels agree: the units (70_reset_and_hazards.md R248) -/

/-- `b`, an encoder at the beat level, agrees with `a` at the command level: what it has transferred and what pends make
up the output of `a`, and every other register but `enc_pend` is the same (70_reset_and_hazards.md R248). -/
structure EncAgrees (a b : EncUnit W) : Prop where
  fields : b.out ++ b.pend = a.out
  phase : b.phase = a.phase
  cur : b.cur = a.cur
  count : b.count = a.count
  err : b.err = a.err

/-- As `EncAgrees`, for the decoder, whose pending output is `dec_remaining` copies of `dec_xval`. -/
structure DecAgrees (a b : DecUnit W) : Prop where
  bits : b.out ++ List.replicate b.remaining.val b.xval = a.out
  phase : b.phase = a.phase
  cur : b.cur = a.cur
  acc : b.acc = a.acc
  nbits : b.nbits = a.nbits
  err : b.err = a.err

section Encoder

variable {a b : EncUnit W}

/-- What is emitted joins the output at the command level and the pending output at the beat level. -/
theorem EncAgrees.afterFields (h : EncAgrees a b) (fs : List (CountField W)) :
    EncAgrees (a.afterFields .command fs) (b.afterFields .beat fs) :=
  { h with fields := by simp [EncUnit.afterFields, ← h.fields] }

theorem EncAgrees.faulted (h : EncAgrees a b) (code : ErrCode) : EncAgrees (a.faulted code) (b.faulted code) :=
  { h with phase := rfl, err := by simp only [EncUnit.faulted, h.err] }

/-- START clears both outputs, when nothing pends (20_memory.md R52). -/
theorem EncAgrees.start (hpend : b.pend = []) : EncAgrees (startEnc a) (startEnc b) :=
  ⟨by simp [hpend], rfl, rfl, rfl, rfl⟩

theorem EncAgrees.transferField (h : EncAgrees a b) : EncAgrees a (transferField b) :=
  ⟨(transferField_fields b).trans h.fields, by simp [h.phase], by simp [h.cur], by simp [h.count], by simp [h.err]⟩

theorem EncAgrees.whenActive {rule rule' : EncUnit W → EncUnit W} (h : EncAgrees a b)
    (hrule : EncAgrees (rule a) (rule' b)) : EncAgrees (whenEncActive rule a) (whenEncActive rule' b) := by
  obtain ⟨hphase, ha⟩ | ⟨hphase, ha⟩ | ⟨hphase, ha⟩ := whenEncActive_cases rule a <;> rw [ha]
  · rwa [whenEncActive_error (h.phase.trans hphase)]
  · rw [whenEncActive_done (h.phase.trans hphase)]
    exact h.faulted .phase
  · rwa [whenEncActive_active (h.phase.trans hphase)]

theorem EncAgrees.reserved (h : EncAgrees a b) : EncAgrees (reservedEncRule a) (reservedEncRule b) := by
  obtain ⟨hphase, ha⟩ | ⟨hphase, ha⟩ := reservedEncRule_cases a <;> rw [ha]
  · rwa [reservedEncRule_error (h.phase.trans hphase)]
  · rw [reservedEncRule_fault (h.phase ▸ hphase)]
    exact h.faulted .illegalCommand

theorem EncAgrees.endRule (h : EncAgrees a b) : EncAgrees (encEndRule .command a) (encEndRule .beat b) := by
  rw [encEndRule_eq, encEndRule_eq, h.count]
  exact { h.afterFields [a.count] with phase := rfl }

/-- ENC.BIT flips, escapes or counts at both levels alike, since value and counter are the same. -/
theorem EncAgrees.bitRule {cfg : Config} {a b : EncUnit cfg.W} (h : EncAgrees a b) (v : Bit) :
    EncAgrees (encBitRule cfg .command v a) (encBitRule cfg .beat v b) := by
  obtain ⟨hflip, ha⟩ | ⟨rfl, hfull, ha⟩ | ⟨rfl, -, hroom, ha⟩ := encBitRule_cases cfg .command v a <;> rw [ha]
  · rw [encBitRule_flip (h.cur ▸ hflip), h.count, h.cur]
    exact { h.afterFields [a.count] with count := rfl, cur := rfl }
  · rw [← h.cur, encBitRule_escape (h.count ▸ hfull)]
    exact { h.afterFields [maxField cfg, zeroField cfg.W] with count := rfl }
  · rw [← h.cur, encBitRule_increment (h.count ▸ hroom)]
    exact { h with cur := rfl, count := by simp only [h.count] }

/-- A command with nothing pending keeps the encoders in agreement. -/
theorem EncAgrees.after {cfg : Config} {a b : EncUnit cfg.W} (h : EncAgrees a b) (hpend : b.pend = []) (i : Instr) :
    EncAgrees (encAfter cfg .command a i) (encAfter cfg .beat b i) := by
  cases i with
  | encStart => exact .start hpend
  | encBit v => exact h.whenActive (h.bitRule v)
  | encEnd => exact h.whenActive h.endRule
  | reservedEnc low => exact h.reserved
  | _ => exact h

end Encoder

section Decoder

variable {a b : DecUnit W}

/-- The copies of an expanded field join the output at the command level and pend at the beat level, where nothing
pended. -/
theorem DecAgrees.afterField (h : DecAgrees a b) (hnone : b.remaining.val = 0) (v : CountField W) :
    DecAgrees (a.afterField .command v) (b.afterField .beat v) := by
  have hout : b.out = a.out := by simpa [hnone] using h.bits
  exact { h with bits := by simp only [DecUnit.afterField, hout, h.cur], cur := by simp [h.cur] }

theorem DecAgrees.faulted (h : DecAgrees a b) (code : ErrCode) : DecAgrees (a.faulted code) (b.faulted code) :=
  { h with phase := rfl, err := by simp only [DecUnit.faulted, h.err] }

/-- START clears both outputs, when nothing pends (20_memory.md R52). -/
theorem DecAgrees.start (hnone : b.remaining.val = 0) : DecAgrees (startDec a) (startDec b) :=
  ⟨by simp [hnone], rfl, rfl, rfl, rfl, rfl⟩

theorem DecAgrees.transferBit (h : DecAgrees a b) : DecAgrees a (transferBit b) :=
  ⟨by simpa using h.bits, by simp [h.phase], by simp [h.cur], by simp [h.acc], by simp [h.nbits], by simp [h.err]⟩

theorem DecAgrees.whenActive {rule rule' : DecUnit W → DecUnit W} (h : DecAgrees a b)
    (hrule : DecAgrees (rule a) (rule' b)) : DecAgrees (whenDecActive rule a) (whenDecActive rule' b) := by
  obtain ⟨hphase, ha⟩ | ⟨hphase, ha⟩ | ⟨hphase, ha⟩ := whenDecActive_cases rule a <;> rw [ha]
  · rwa [whenDecActive_error (h.phase.trans hphase)]
  · rw [whenDecActive_done (h.phase.trans hphase)]
    exact h.faulted .phase
  · rwa [whenDecActive_active (h.phase.trans hphase)]

theorem DecAgrees.reserved (h : DecAgrees a b) : DecAgrees (reservedDecRule a) (reservedDecRule b) := by
  obtain ⟨hphase, ha⟩ | ⟨hphase, ha⟩ := reservedDecRule_cases a <;> rw [ha]
  · rwa [reservedDecRule_error (h.phase.trans hphase)]
  · rw [reservedDecRule_fault (h.phase ▸ hphase)]
    exact h.faulted .illegalCommand

theorem DecAgrees.bitRule (h : DecAgrees a b) (hnone : b.remaining.val = 0) (order : BitOrder) (c : Bit) :
    DecAgrees (decBitRule order .command c a) (decBitRule order .beat c b) := by
  obtain ⟨hinside, ha⟩ | ⟨hlast, ha⟩ := decBitRule_cases order .command c a <;> rw [ha]
  · rw [decBitRule_inside (h.nbits ▸ hinside), h.acc, h.nbits]
    exact { h with acc := rfl, nbits := rfl }
  · rw [decBitRule_last (h.nbits ▸ hlast), h.acc, h.nbits]
    exact { h.afterField hnone _ with acc := rfl, nbits := rfl }

theorem DecAgrees.fieldRule (h : DecAgrees a b) (hnone : b.remaining.val = 0) (f : CountField W) :
    DecAgrees (decFieldRule .command f a) (decFieldRule .beat f b) := by
  obtain ⟨hinside, ha⟩ | ⟨hboundary, ha⟩ := decFieldRule_cases .command f a <;> rw [ha]
  · rw [decFieldRule_inside (h.nbits ▸ hinside)]
    exact h.faulted .fieldMisaligned
  · rw [decFieldRule_boundary (h.nbits ▸ hboundary)]
    exact h.afterField hnone f

theorem DecAgrees.endRule (h : DecAgrees a b) : DecAgrees (decEndRule a) (decEndRule b) := by
  obtain ⟨hinside, ha⟩ | ⟨hboundary, ha⟩ := decEndRule_cases a <;> rw [ha]
  · rw [decEndRule_inside (h.nbits ▸ hinside)]
    exact h.faulted .truncatedInput
  · rw [decEndRule_boundary (h.nbits ▸ hboundary)]
    exact { h with phase := rfl }

/-- A command with nothing pending keeps the decoders in agreement. -/
theorem DecAgrees.after {cfg : Config} {a b : DecUnit cfg.W} (h : DecAgrees a b) (hnone : b.remaining.val = 0)
    (i : Instr) : DecAgrees (decAfter cfg .command a i) (decAfter cfg .beat b i) := by
  cases i with
  | decStart => exact .start hnone
  | decBit c => exact h.whenActive (h.bitRule hnone cfg.order c)
  | decField f => exact h.whenActive (h.fieldRule hnone (fieldOf cfg.W f))
  | decEnd => exact h.whenActive h.endRule
  | reservedDec8 => exact h.reserved
  | reservedDecD => exact h.reserved
  | reservedDecEF low => exact h.reserved
  | _ => exact h

end Decoder

/-! ## The two levels agree: the block -/

/-- Two states agree when they have one configuration, the first is at the command level, the second at the beat level,
and their units agree. -/
theorem agrees_iff {A B : State} : Agrees A B ↔
    ∃ (cfg : Config) (a b : EncUnit cfg.W) (d d' : DecUnit cfg.W), EncAgrees a b ∧ DecAgrees d d' ∧
      A = ⟨cfg, .command, a, d, A.offered, A.inputs⟩ ∧ B = ⟨cfg, .beat, b, d', B.offered, B.inputs⟩ := by
  constructor
  · obtain ⟨cfg, level, a, d, o, is⟩ := A
    obtain ⟨cfg', level', b, d', o', is'⟩ := B
    rintro ⟨hlevel, hlevel', hcfg, hfields, hbits, hphase, hcur, hcount, herr, hphase', hcur', hacc, hnbits, herr'⟩
    cases hlevel; cases hlevel'; cases hcfg
    have hout := List.map_injective_iff.2 Fin.val_injective hfields
    exact ⟨cfg, a, b, d, d', ⟨hout, hphase, hcur, Fin.ext hcount, herr⟩,
      ⟨hbits, hphase', hcur', Fin.ext hacc, hnbits, herr'⟩, rfl, rfl⟩
  · rintro ⟨cfg, a, b, d, d', henc, hdec, hA, hB⟩
    rw [hA, hB]
    exact ⟨rfl, rfl, rfl, congrArg _ henc.fields, hdec.bits, henc.phase, henc.cur, congrArg _ henc.count, henc.err,
      hdec.phase, hdec.cur, congrArg _ hdec.acc, hdec.nbits, hdec.err⟩

/-- Two states of one configuration agree when their units do. -/
theorem agrees_of_units {cfg : Config} {a b : EncUnit cfg.W} {d d' : DecUnit cfg.W} (henc : EncAgrees a b)
    (hdec : DecAgrees d d') (o o' : Option Nat) (is is' : List HostInput) :
    Agrees ⟨cfg, .command, a, d, o, is⟩ ⟨cfg, .beat, b, d', o', is'⟩ :=
  agrees_iff.2 ⟨cfg, a, b, d, d', henc, hdec, rfl, rfl⟩

/-- Reset brings both levels to states that agree (70_reset_and_hazards.md R230). -/
theorem agrees_reset (cfg : Config) (is is' : List HostInput) :
    Agrees { State.resetWith cfg .command with inputs := is } { State.resetWith cfg .beat with inputs := is' } :=
  agrees_of_units ⟨rfl, rfl, rfl, rfl, rfl⟩ ⟨rfl, rfl, rfl, rfl, rfl, rfl⟩ none none is is'

section Agreement

variable {A A' B B' : State} {i : Instr} {p : HostInput} {rest : List HostInput}

theorem Agrees.resetBlock (h : Agrees A B) : Agrees (resetBlock A) (resetBlock B) := by
  obtain ⟨cfg, a, b, d, d', -, -, hA, hB⟩ := agrees_iff.1 h
  rw [hA, hB]
  exact agrees_reset cfg A.inputs B.inputs

/-- A beat's transfers are not seen at the command level: they lose no output (20_memory.md R51). -/
theorem Agrees.outputTransfers (h : Agrees A B) (p : HostInput) (o : Option Nat) :
    Agrees A { outputTransfers p B with offered := o } := by
  obtain ⟨cfg, a, b, d, d', henc, hdec, hA, hB⟩ := agrees_iff.1 h
  rw [hA, hB]
  refine agrees_of_units ?_ ?_ _ o _ _
  · rw [outputTransfers_enc]
    split
    · exact henc.transferField
    · exact henc
  · rw [outputTransfers_dec]
    split
    · exact hdec.transferBit
    · exact hdec

/-- A command accepted with nothing pending keeps the two levels in agreement. -/
theorem Agrees.exec (h : Agrees A B) (hready : cmdReady B = true) (hA : exec i A = .next A')
    (hB : exec i B = .next B') : Agrees A' B' := by
  obtain ⟨hpend, hremaining⟩ := (cmdReady_iff B).1 hready
  obtain ⟨cfg, a, b, d, d', henc, hdec, hunitsA, hunitsB⟩ := agrees_iff.1 h
  rw [hunitsA, exec_eq] at hA
  rw [hunitsB] at hpend hremaining
  rw [hunitsB, exec_eq] at hB
  cases hA
  cases hB
  exact agrees_of_units (henc.after hpend i) (hdec.after hremaining i) _ _ _ _

/-- One beat is one step of the command level when its input takes effect, and none when it does not. -/
theorem Agrees.step (h : Agrees A B) (hinputs : B.inputs = p :: rest) (hstep : step B = .next B') :
    (takesEffect p B = true ∧ ∀ later, A.inputs = p :: later →
      ∃ A', Machine.step A = .next A' ∧ A'.inputs = later ∧ Agrees A' B') ∨
    (takesEffect p B = false ∧ Agrees A B') := by
  have ⟨hcommand, hbeat, hcfg, _⟩ := h
  cases hrst : p.rst with
  | true =>
    obtain rfl := Host.Outcome.next.inj ((step_of_reset hinputs hrst).symm.trans hstep)
    refine .inl ⟨by simp [takesEffect, hrst], fun later hlater => ⟨_, step_of_reset hlater hrst, rfl, ?_⟩⟩
    exact Agrees.resetBlock (A := { A with inputs := later }) (B := { B with inputs := rest }) h
  | false =>
    obtain ⟨hvalid, hready, i, hdecode, hexec⟩ | ⟨hwaits, o, rfl⟩ := beat_cases hbeat hinputs hrst hstep
    · refine .inl ⟨by simp [takesEffect, hvalid, hready], fun later hlater => ?_⟩
      have hdecodeA : decode A.cfg.W p.cmdWord = .ok i := by rwa [← hcfg]
      obtain ⟨A', hA'⟩ := exec_answers_next i { A with inputs := later }
      obtain ⟨-, -, -, hlaterA'⟩ := exec_frame hA'
      have hstepA := commandStepRunsDecodedCommand A p later i hcommand hlater hrst hvalid hdecodeA
      exact ⟨A', hstepA.trans hA', hlaterA', Agrees.exec (A := { A with inputs := later })
        (B := { B with inputs := rest, offered := none }) h hready hA' hexec⟩
    · refine .inr ⟨by obtain hw | hw := hwaits <;> simp [takesEffect, hrst, hw], ?_⟩
      exact Agrees.outputTransfers (B := { B with inputs := rest }) h p o

end Agreement

/-! ## Runs of both levels -/

theorem run_succ_of_step {s t : State} (hstep : step s = .next t) (k : Nat) :
    Host.Core.run Sys2Proof.core (k + 1) s = Host.Core.run Sys2Proof.core k t := by
  have hcore : Sys2Proof.core.step s = .next t := hstep
  simp only [Host.Core.run, hcore]

theorem effectiveInputs_no_input {s : State} (hinputs : s.inputs = []) (k : Nat) : effectiveInputs k s = [] := by
  cases k with
  | zero => rfl
  | succ k => simp only [effectiveInputs, hinputs]

theorem effectiveInputs_succ {s t : State} {p : HostInput} {rest : List HostInput} (hinputs : s.inputs = p :: rest)
    (hstep : step s = .next t) (k : Nat) : effectiveInputs (k + 1) s =
      if takesEffect p s then p :: effectiveInputs k t else effectiveInputs k t := by
  simp only [effectiveInputs, hinputs, hstep]

/-- The command level follows a run of the beat level on the inputs that take effect in it. -/
theorem Agrees.run {k : Nat} {A B B' : State} (h : Agrees A B) (hinputs : A.inputs = effectiveInputs k B)
    (hrun : Host.Core.run Sys2Proof.core k B = .next B') :
    ∃ A', Host.Core.run Sys2Proof.core A.inputs.length A = .next A' ∧ Agrees A' B' := by
  induction k generalizing A B with
  | zero =>
    cases hrun
    exact ⟨A, by simp only [hinputs]; rfl, h⟩
  | succ k ih =>
    obtain ⟨u, hstep, hrest⟩ := step_of_run_succ hrun
    cases hqueue : B.inputs with
    | nil =>
      obtain rfl := Host.Outcome.next.inj ((step_no_input hqueue).symm.trans hstep)
      rw [effectiveInputs_no_input hqueue] at hinputs
      exact ih h (by rw [hinputs, effectiveInputs_no_input hqueue]) hrest
    | cons p rest =>
      rw [effectiveInputs_succ hqueue hstep] at hinputs
      obtain ⟨heffect, hfollow⟩ | ⟨hnoEffect, hagrees⟩ := h.step hqueue hstep
      · rw [if_pos heffect] at hinputs
        obtain ⟨v, hstepA, hlater, hagrees⟩ := hfollow _ hinputs
        rw [hinputs, List.length_cons, run_succ_of_step hstepA, ← hlater]
        exact ih hagrees hlater hrest
      · rw [if_neg (by simp [hnoEffect])] at hinputs
        exact ih hagrees hinputs hrest

/-- Settles O56, by induction on the beats: each beat is one command-level step or none (`Agrees.step`). -/
theorem levelsAgree : Obligations.LevelsAgree := by
  unfold Obligations.LevelsAgree
  exact ⟨fun cfg => agrees_reset cfg [] [], fun _ _ _ _ hagrees hinputs hrun => hagrees.run hinputs hrun⟩

/-! ## Beats of pending output (70_reset_and_hazards.md R251) -/

theorem pendingBeats_eq_zero_iff (s : State) : pendingBeats s = 0 ↔ cmdReady s = true := by
  rw [cmdReady_iff, pendingBeats, Nat.max_eq_zero_iff, List.length_eq_zero_iff]

theorem pendingBeats_raiseFault (u : CoreUnit) (code : ErrCode) (s : State) :
    pendingBeats (raiseFault u code s) = pendingBeats s := by
  cases u <;> rfl

/-- A beat with both outputs taken takes one beat of output away (70_reset_and_hazards.md R244, R245). -/
theorem pendingBeats_outputTransfers {p : HostInput} (hfields : p.foReady = true) (hbits : p.boReady = true)
    (s : State) : pendingBeats (outputTransfers p s) = pendingBeats s - 1 := by
  have hpend : (outputTransfers p s).enc.pend.length = s.enc.pend.length - 1 := by
    rw [outputTransfers_enc, if_pos hfields, transferField_pend]
    exact List.length_tail
  have hremaining : (outputTransfers p s).dec.remaining.val = s.dec.remaining.val - 1 := by
    rw [outputTransfers_dec, if_pos hbits]
    exact transferBit_remaining s.dec
  rw [pendingBeats, hpend, hremaining, pendingBeats]
  omega

/-- A block with the invariant has at most `max(2, MAX)` beats of output pending (70_reset_and_hazards.md R246). -/
theorem pendingBeats_le {s : State} (hinv : s.Inv) : pendingBeats s ≤ max 2 s.cfg.MAX := by
  obtain ⟨⟨hpend, -⟩, -⟩ := hinv
  exact max_le_max hpend (field_le_MAX s.dec.remaining)

section Costs

variable {s t : State} (hready : cmdReady s = true)
include hready

theorem pendingBeats_with_enc (e : EncUnit s.cfg.W) : pendingBeats { s with enc := e } = e.pend.length := by
  obtain ⟨-, hremaining⟩ := (cmdReady_iff s).1 hready
  simp only [pendingBeats, hremaining, Nat.max_zero]

theorem pendingBeats_with_dec (d : DecUnit s.cfg.W) : pendingBeats { s with dec := d } = d.remaining.val := by
  obtain ⟨hpend, -⟩ := (cmdReady_iff s).1 hready
  simp only [pendingBeats, hpend, List.length_nil, Nat.zero_max]

/-- NOP, START and DEC.END make no output. -/
theorem pendingBeats_of_silent {i : Instr} (hi : i = .nop ∨ i = .encStart ∨ i = .decStart ∨ i = .decEnd)
    (hexec : exec i s = .next t) : pendingBeats t = 0 := by
  obtain ⟨hpend, hremaining⟩ := (cmdReady_iff s).1 hready
  have hend : (whenDecActive decEndRule s.dec).remaining = s.dec.remaining :=
    whenDecActive_keeps (·.remaining = s.dec.remaining) rfl rfl fun _ => decEndRule_remaining s.dec
  rw [pendingBeats_eq_zero_iff, cmdReady_iff]
  rw [exec_eq] at hexec
  cases hexec
  obtain rfl | rfl | rfl | rfl := hi
  · exact ⟨hpend, hremaining⟩
  · exact ⟨hpend, hremaining⟩
  · exact ⟨hpend, hremaining⟩
  · exact ⟨hpend, (congrArg Fin.val hend).trans hremaining⟩

/-- A command that faults makes no output: it is a fault entry and nothing else (60_exceptions.md R204). -/
theorem pendingBeats_of_fault {i : Instr} {u : CoreUnit} (hrunning : phaseOf u s ≠ .error)
    (herror : phaseOf u t = .error) (hexec : exec i s = .next t) : pendingBeats t = 0 := by
  obtain ⟨code, -, rfl⟩ := faultsArePrecise i s t u hexec hrunning herror
  rw [pendingBeats_raiseFault]
  exact (pendingBeats_eq_zero_iff s).2 hready

/-- A command for a unit in ERROR makes no output: it is the unit's START or is ignored (60_exceptions.md R209). -/
theorem pendingBeats_of_error {i : Instr} {u : CoreUnit} (hunit : i.unit = some u) (herror : phaseOf u s = .error)
    (hexec : exec i s = .next t) : pendingBeats t = 0 := by
  by_cases hstart : i = .encStart ∨ i = .decStart
  · exact pendingBeats_of_silent hready (.inr (hstart.imp_right .inl)) hexec
  · rw [not_or] at hstart
    obtain ⟨hencStart, hdecStart⟩ := hstart
    obtain rfl := Host.Outcome.next.inj
      ((errorPhaseIgnoresCommands i u s hunit hencStart hdecStart herror).symm.trans hexec)
    exact (pendingBeats_eq_zero_iff s).2 hready

variable (hlevel : s.level = .beat)
include hlevel

/-- ENC.BIT in ACTIVE costs a beat for each field emitted: one at a flip, two at an escape. -/
theorem pendingBeats_encBit {b : Bit} (hactive : s.enc.phase = .active) (hexec : exec (.encBit b) s = .next t) :
    pendingBeats t = if b ≠ s.enc.cur then 1 else if s.enc.count.val = s.cfg.MAX then 2 else 0 := by
  obtain ⟨hpend, -⟩ := (cmdReady_iff s).1 hready
  rw [exec_encBit, whenEncActive_active hactive] at hexec
  cases hexec
  rw [pendingBeats_with_enc hready, hlevel]
  obtain ⟨hflip, h⟩ | ⟨hsame, hfull, h⟩ | ⟨hsame, hroom, _, h⟩ := encBitRule_cases s.cfg .beat b s.enc <;> rw [h]
  · rw [if_pos hflip]
    simp [EncUnit.afterFields, hpend]
  · rw [if_neg (not_not.2 hsame), if_pos hfull]
    simp [EncUnit.afterFields, hpend]
  · rw [if_neg (not_not.2 hsame), if_neg hroom]
    simp [hpend]

/-- ENC.END in ACTIVE costs a beat for the field it flushes. -/
theorem pendingBeats_encEnd (hactive : s.enc.phase = .active) (hexec : exec .encEnd s = .next t) :
    pendingBeats t = 1 := by
  obtain ⟨hpend, -⟩ := (cmdReady_iff s).1 hready
  rw [exec_encEnd, whenEncActive_active hactive] at hexec
  cases hexec
  rw [pendingBeats_with_enc hready, hlevel, encEndRule_eq]
  simp [EncUnit.afterFields, hpend]

/-- DEC.FIELD at a field boundary in ACTIVE costs a beat for each bit of its run. -/
theorem pendingBeats_decField {f : CountField s.cfg.W} (hactive : s.dec.phase = .active)
    (hboundary : s.dec.nbits = 0) (hexec : exec (.decField f.val) s = .next t) : pendingBeats t = f.val := by
  rw [exec_decField, fieldOf_self, whenDecActive_active hactive] at hexec
  cases hexec
  rw [pendingBeats_with_dec hready, hlevel, decFieldRule_boundary hboundary]
  rfl

/-- DEC.BIT in ACTIVE costs a beat for each bit of the run it completes, and none inside a field. -/
theorem pendingBeats_decBit {c : Bit} (hactive : s.dec.phase = .active) (hexec : exec (.decBit c) s = .next t) :
    pendingBeats t =
      if s.dec.nbits + 1 = s.cfg.W then (accumulate s.cfg.order s.dec.acc s.dec.nbits c).val else 0 := by
  obtain ⟨-, hremaining⟩ := (cmdReady_iff s).1 hready
  rw [exec_decBit, whenDecActive_active hactive] at hexec
  cases hexec
  rw [pendingBeats_with_dec hready, hlevel]
  obtain ⟨hinside, h⟩ | ⟨hlast, h⟩ := decBitRule_cases s.cfg.order .beat c s.dec <;> rw [h]
  · rw [if_neg hinside]
    exact hremaining
  · rw [if_pos hlast]
    rfl

end Costs

/-- Settles O58, row by row of R251. -/
theorem beatCosts : Obligations.BeatCosts := by
  unfold Obligations.BeatCosts
  refine ⟨fun s t i hlevel hready hexec => ⟨fun hi => ?_, ?_, ?_, ?_, ?_, ?_, ?_⟩,
    fun s p hfields hbits => pendingBeats_outputTransfers hfields hbits s⟩
  · exact pendingBeats_of_silent hready hi hexec
  · rintro ⟨u, hrunning, herror⟩
    exact pendingBeats_of_fault hready hrunning herror hexec
  · rintro ⟨u, hunit, herror⟩
    exact pendingBeats_of_error hready hunit herror hexec
  · rintro b rfl hactive
    exact pendingBeats_encBit hready hlevel hactive hexec
  · rintro rfl hactive
    exact pendingBeats_encEnd hready hlevel hactive hexec
  · rintro f rfl hactive hboundary
    exact pendingBeats_decField hready hlevel hactive hboundary hexec
  · rintro c rfl hactive
    exact pendingBeats_decBit hready hlevel hactive hexec

/-! ## Liveness (70_reset_and_hazards.md R250) -/

/-- The state `s` of the beat level stands before `n` beats that all offer the word `w` and take both outputs, and
nothing else is offered. -/
structure Offering (w n : Nat) (s : State) : Prop where
  level : s.level = .beat
  fits : w < 2 ^ s.cfg.CW
  offered : s.offered = none ∨ s.offered = some w
  inputs : s.inputs = List.replicate n (offerWord w)

section Liveness

variable {w n : Nat} {s : State}

theorem Offering.duty (h : Offering w n s) : dutyBroken (offerWord w) s = false := duty_kept rfl h.offered

/-- While output pends the offered word waits, and a beat of output is taken. -/
theorem Offering.waits (h : Offering w (n + 1) s) (hbusy : cmdReady s = false) :
    ∃ t, step s = .next t ∧ Offering w n t ∧ pendingBeats t = pendingBeats s - 1 := by
  have hinputs : s.inputs = offerWord w :: List.replicate n (offerWord w) := h.inputs
  obtain ⟨-, -, hwaits⟩ := beatAcceptsOnlyWhenNothingPending s (offerWord w) _ _ h.level hinputs rfl rfl
    (decode_of_lt h.fits) h.offered
  refine ⟨_, hwaits hbusy, ⟨h.level, h.fits, .inr rfl, rfl⟩, ?_⟩
  exact pendingBeats_outputTransfers rfl rfl s

/-- After as many beats as output pends, the offered word can be accepted. -/
theorem Offering.run_until_ready {m : Nat} (h : Offering w (m + n) s) (hpending : pendingBeats s = m) :
    ∃ t, Host.Core.run Sys2Proof.core m s = .next t ∧ Offering w n t ∧ cmdReady t = true := by
  induction m generalizing s with
  | zero => exact ⟨s, rfl, by simpa using h, (pendingBeats_eq_zero_iff s).1 hpending⟩
  | succ m ih =>
    have hbusy : cmdReady s = false := by
      rw [Bool.eq_false_iff, ne_eq, ← pendingBeats_eq_zero_iff, hpending]
      exact Nat.succ_ne_zero m
    rw [Nat.succ_add] at h
    obtain ⟨t, hstep, ht, hless⟩ := h.waits hbusy
    rw [run_succ_of_step hstep]
    exact ih ht (by rw [hless, hpending, Nat.add_sub_cancel])

end Liveness

/-- Settles O57: the accepted command leaves at most `max(2, MAX)` beats of output (`pendingBeats_le`), and when they
are over the second word is accepted (`Offering.run_until_ready`). -/
theorem acceptanceIsBounded : Obligations.AcceptanceIsBounded := by
  unfold Obligations.AcceptanceIsBounded
  intro s w w' hlevel hinv hready hoffered hw hw' hinputs
  obtain ⟨t, hexec⟩ := exec_answers_next (decodeFields s.cfg.W w)
    { s with inputs := List.replicate (max 3 (1 + s.cfg.MAX)) (offerWord w'), offered := none }
  obtain ⟨-, haccepts, -⟩ := beatAcceptsOnlyWhenNothingPending s (offerWord w) _ _ hlevel hinputs rfl rfl
    (decode_of_lt hw) hoffered
  have hstep : step s = .next t := (haccepts hready).trans hexec
  obtain ⟨hcfg, htlevel, htoffered, htinputs⟩ := exec_frame hexec
  have hbound : pendingBeats t ≤ max 2 s.cfg.MAX := hcfg ▸ pendingBeats_le (stepKeepsTheInvariants s t hinv hstep)
  obtain ⟨n, hn⟩ : ∃ n, max 3 (1 + s.cfg.MAX) = pendingBeats t + (n + 1) :=
    ⟨max 3 (1 + s.cfg.MAX) - (pendingBeats t + 1), by omega⟩
  have hoffering : Offering w' (pendingBeats t + (n + 1)) t :=
    ⟨htlevel.trans hlevel, hcfg ▸ hw', .inl htoffered, hn ▸ htinputs⟩
  obtain ⟨u, hrun, hu, huready⟩ := hoffering.run_until_ready rfl
  refine ⟨pendingBeats t + 1, u, by omega, by omega, (run_succ_of_step hstep _).trans hrun, ?_, ?_, hu.duty⟩
  · rw [hu.inputs]
    rfl
  · simp [takesEffect, offerWord, huready]

end Sys2Proof.Machine
